-- ==== Sys2Proof/Word.lean ====
section
/-! DEFINITION. The two word types of the CORE: a byte of data (00_scope.md R4 `BYTE_W`, R5) and a command word
(R4 `CMD_W`, 30_encoding.md R50). -/

namespace Sys2Proof

/-- A byte of raw or encoded data, unsigned, 0 to 255 (00_scope.md R5, 20_memory.md R30). -/
abbrev Byte := BitVec 8

/-- A command word `cmd[9:0]` (30_encoding.md R50). -/
abbrev CmdWord := BitVec 10

end Sys2Proof
end

