-- ==== Sys2Proof/Syntax.lean ====
section
/-! DEFINITION. The syntax of the machine: its instructions (one constructor per row of spec/opcode_table.json), the items
and events a host presents, and the lines of the trace notation (30_encoding.md). -/

namespace Sys2Proof

/-- The two formats of 30_encoding.md: the command word `EV` (R50) and the data record `PAIR` (R56). -/
inductive Format where
  | ev
  | pair
deriving DecidableEq, Repr

/-- The two units of the CORE (00_scope.md R1); the `unit` bit of a command word chooses one (30_encoding.md R50). -/
inductive CodecUnit where
  | enc
  | dec
deriving DecidableEq, Repr

/-- One constructor per row of the opcode table. An END carries no operand: its `data` bits are ignored (30_encoding.md R53). -/
inductive Instr where
  /-- `ENC.BYTE b` (40_encoder.md R71): the next byte of raw data. -/
  | encByte (b : Byte)
  /-- `ENC.END` (40_encoder.md R72): the raw data has ended. -/
  | encEnd
  /-- `DEC.BYTE b` (41_decoder.md R91): the next byte of encoded data. -/
  | decByte (b : Byte)
  /-- `DEC.END` (41_decoder.md R92): the encoded data has ended. -/
  | decEnd
  /-- `PAIR` (30_encoding.md R56): one pair of encoded data; as an action of the machine, DEC.PAIR of R62
  (DESIGN CHOICE, log 1). -/
  | pair (value count : Byte)
deriving DecidableEq, Repr

/-- What a host can present in one step: a command word (30_encoding.md R50) or one pair of encoded data (R56). The two
formats are two kinds of thing and "must not be confused" (30_encoding.md), so an item carries its format. -/
inductive Item where
  | command (w : CmdWord)
  | pair (value count : Byte)
deriving DecidableEq, Repr

/-- One event at the CORE's inputs (10_state.md R10, R27). `reset dropped` is RESET, with the item presented together with
it, if any (30_encoding.md R54, 70_reset_and_hazards.md R150). -/
inductive Event where
  | reset (dropped : Option Item)
  | present (item : Item)
deriving DecidableEq, Repr

/-- A line of the trace notation: the five forms of 30_encoding.md R61 and the four pseudo-commands of R62. -/
inductive TraceLine where
  | encByte (b : Byte)
  | encEnd
  | decByte (b : Byte)
  | decEnd
  | reset
  | encStream (bs : List Byte)
  | decStream (bs : List Byte)
  | decPair (value count : Byte)
  | encRun (v : Byte) (n : Nat)
deriving DecidableEq, Repr

end Sys2Proof
end

