-- ==== Sys2Proof/WellFormed.lean ====
section
/-! DEFINITION. Well-formedness of syntax. Every instruction is well formed: an operand is a byte, and "there is none of any"
reserved or illegal encoding (30_encoding.md R59). Among trace lines one form has a side condition: `ENC.RUN v, n` asks `n >= 1` (R62). -/

namespace Sys2Proof

/-- Every instruction with every operand is legal (30_encoding.md R51, R57, R59). -/
def Instr.wf : Instr → Bool
  | .encByte _ => true
  | .encEnd => true
  | .decByte _ => true
  | .decEnd => true
  | .pair _ _ => true

/-- The side condition of 30_encoding.md R62: a run has at least one byte. -/
def TraceLine.wf : TraceLine → Bool
  | .encByte _ => true
  | .encEnd => true
  | .decByte _ => true
  | .decEnd => true
  | .reset => true
  | .encStream _ => true
  | .decStream _ => true
  | .decPair _ _ => true
  | .encRun _ n => 1 ≤ n

end Sys2Proof
end

