-- ==== Sys2Proof/Decode.lean ====
section
/-! DEFINITION. Decoding and encoding of command words and pairs (30_encoding.md R50 to R60). -/

namespace Sys2Proof

/-! ### Fields of a command word -/

/-- `unit = cmd[9]` (30_encoding.md R51): 0 is the ENC unit, 1 the DEC unit (R50). -/
def cmdUnit (w : CmdWord) : CodecUnit := if w.getLsbD 9 then .dec else .enc

/-- `end = cmd[8]` (30_encoding.md R51): `true` when the input has ended. -/
def cmdEnd (w : CmdWord) : Bool := w.getLsbD 8

/-- `data = cmd[7:0]` (30_encoding.md R51), not shifted, scaled or extended. -/
def cmdData (w : CmdWord) : Byte := w.extractLsb' 0 8

/-! ### Decoding -/

/-- The command a word stands for, total over all 1024 words (30_encoding.md R51, R52); the data of an END is ignored (R53). -/
def decodeCommand (w : CmdWord) : Instr :=
  match cmdUnit w, cmdEnd w with
  | .enc, false => .encByte (cmdData w)
  | .enc, true => .encEnd
  | .dec, false => .decByte (cmdData w)
  | .dec, true => .decEnd

/-- The instruction an item stands for. No item is illegal (30_encoding.md R59). -/
def decode : Item → Instr
  | .command w => decodeCommand w
  | .pair v c => .pair v c

/-! ### The rows of the table -/

/-- A row of 30_encoding.md R52: a word `w` is the row's command when `w & mask = match`. -/
structure Row where
  mnemonic : String
  value : CmdWord
  mask : CmdWord
deriving DecidableEq, Repr

/-- The four rows of 30_encoding.md R52. -/
def commandRows : List Row :=
  [⟨"ENC.BYTE", 0x000, 0x300⟩, ⟨"ENC.END", 0x100, 0x300⟩, ⟨"DEC.BYTE", 0x200, 0x300⟩, ⟨"DEC.END", 0x300, 0x300⟩]

/-- `w & mask = match`. -/
def rowMatches (r : Row) (w : CmdWord) : Bool := w &&& r.mask == r.value

/-- The mnemonic of an instruction's row of spec/opcode_table.json. -/
def mnemonicOf : Instr → String
  | .encByte _ => "ENC.BYTE"
  | .encEnd => "ENC.END"
  | .decByte _ => "DEC.BYTE"
  | .decEnd => "DEC.END"
  | .pair _ _ => "PAIR"

/-! ### Encoding -/

/-- A byte as the `data` field of a command word. -/
def dataField (b : Byte) : CmdWord := b.setWidth 10

/-- The canonical item of an instruction: `ENC.BYTE b` is `0x000 + b`, `DEC.BYTE b` is `0x200 + b` (30_encoding.md R52), an END
has `data = 0` (R53), a pair is its two bytes, value first (R56). -/
def encode : Instr → Item
  | .encByte b => .command (0x000 + dataField b)
  | .encEnd => .command 0x100
  | .decByte b => .command (0x200 + dataField b)
  | .decEnd => .command 0x300
  | .pair v c => .pair v c

/-- A canonical word: every BYTE word, and an END with `data = 0` (30_encoding.md R53). -/
def canonicalWord (w : CmdWord) : Bool := !cmdEnd w || cmdData w == 0

/-! ### Bytes

How the bytes of an item lie one after the other. A pair is two bytes, value first (20_memory.md R33). The spec gives a command
word no storage; the model lays it out as two bytes, `data` first and then `{000000, unit, end}` (DESIGN CHOICE, log 4). -/

/-- Why a list of bytes is no item of a format. -/
inductive DecodeReject where
  /-- Fewer bytes than the format has. -/
  | tooFewBytes
  /-- The bytes hold a number above 1023, and a command word has 10 bits (30_encoding.md R50). -/
  | notACommandWord
deriving DecidableEq, Repr

/-- What the byte decoder answers: an item's instruction and the bytes after it, or a rejection by name. -/
inductive Decoded where
  | instr (i : Instr) (rest : List Byte)
  | reject (why : DecodeReject)
deriving DecidableEq, Repr

/-- The decoder on any bytes. Its format is known from outside (the command port or the encoded data), so it never has to
find a length (30_encoding.md R60). -/
def decodeBytes : Format → List Byte → Decoded
  | .ev, lo :: hi :: rest =>
    if hi.toNat < 4 then .instr (decodeCommand ((hi ++ lo).setWidth 10)) rest else .reject .notACommandWord
  | .pair, v :: c :: rest => .instr (.pair v c) rest
  | _, _ => .reject .tooFewBytes

/-- The bytes of an item. -/
def itemBytes : Item → List Byte
  | .command w => [cmdData w, (w.extractLsb' 8 2).setWidth 8]
  | .pair v c => [v, c]

/-- The format an instruction is encoded in (the "format" of its row of spec/opcode_table.json). -/
def formatOf : Instr → Format
  | .encByte _ => .ev
  | .encEnd => .ev
  | .decByte _ => .ev
  | .decEnd => .ev
  | .pair _ _ => .pair

/-- The bytes of an instruction's canonical encoding. -/
def encodeBytes (i : Instr) : List Byte := itemBytes (encode i)

/-- A whole byte sequence as instructions of one format; `none` where the decoder rejects. `fuel` bounds how many are read. -/
def decodeAll (f : Format) : Nat → List Byte → Option (List Instr)
  | _, [] => some []
  | 0, _ :: _ => none
  | fuel + 1, bs =>
    match decodeBytes f bs with
    | .instr i rest => (decodeAll f fuel rest).map (i :: ·)
    | .reject _ => none

/-! ### Words numbered as spec/opcode_table.json numbers them -/

/-- The item a table word stands for. Rows of format EV have 10 bits and the PAIR row 16, and PAIR has no fixed bit, so a number
below 1024 is both: it is read as the command word. A number from 1024 to 65535 can only be a PAIR, with `value` in bits
15:8 and `count` in bits 7:0 (30_encoding.md R56). (DESIGN CHOICE, log 3.) -/
def itemOfTableWord (nbits w : Nat) : Option Item :=
  if w < 1024 then some (.command (BitVec.ofNat 10 w))
  else if nbits = 16 ∧ w < 65536 then some (.pair (BitVec.ofNat 8 (w / 256)) (BitVec.ofNat 8 w))
  else none

/-- The instruction the decoder reads from a table word; its bytes are laid out (`itemBytes`) and given to `decodeBytes`. -/
def decodeTableWord (nbits w : Nat) : Option Instr :=
  match itemOfTableWord nbits w with
  | some (.command cw) =>
    match decodeBytes .ev (itemBytes (.command cw)) with
    | .instr i _ => some i
    | .reject _ => none
  | some (.pair v c) =>
    match decodeBytes .pair (itemBytes (.pair v c)) with
    | .instr i _ => some i
    | .reject _ => none
  | none => none

end Sys2Proof
end

