-- ==== Sys2Proof/Config.lean ====
section
/-! DEFINITION. The parameters of the CORE (00_scope.md R4). `BYTE_W`, `CNT_W` and `CMD_W` are the widths of the types
of Word.lean; `PAIR_ORDER` is `Machine.pairBytes` (Machine/Operands.lean); `EMIT_TIMING` is the schedule of the meanings of Machine/Enc.lean;
`ENC_ST_W` and `DEC_ST_W` are the widths of `Machine.encStCode` and `Machine.decStCode`.
`MAX_LEN` is unbounded: every sequence of the model is a list of any length (DESIGN CHOICE, log 12).
The spec leaves no value open, so there is no free value here. -/

namespace Sys2Proof.Config

/-- The name and version of the command set (00_scope.md R1). -/
def commandSet : String := "RLE-CMD 1.0"

/-- `CAP`, the largest run length one pair carries (00_scope.md R4, 40_encoder.md R73). -/
def cap : Nat := 255

/-- The code of status `OK` (10_state.md R20). -/
def okCode : Nat := 0

/-- `ERR_CODE_MALFORMED`, the code of MalformedInput (00_scope.md R4, 60_exceptions.md R130). -/
def errCodeMalformed : Nat := 1

end Sys2Proof.Config
end

