-- ==== Sys2Proof/Machine/State.lean ====
section
/-! DEFINITION. The state of the CORE (10_state.md R11 to R17), with the host-owned histories and inputs a step answers or
reads (R23), the reasons a step can stop, and the state after reset (R26). -/

namespace Sys2Proof.Machine

/-- `enc.st` (10_state.md R11). -/
inductive EncSt where
  | idle
  | run
deriving DecidableEq, Repr

/-- `dec.st` (10_state.md R15). The fourth pattern, 3, is unrepresentable, as 93_implementation_defined.md V1 advises (log 10). -/
inductive DecSt where
  | val
  | cnt
  | err
deriving DecidableEq, Repr

/-- The registers of the ENC unit: `enc.st`, `enc.val`, `enc.len` (10_state.md R11 to R13). -/
structure EncUnit where
  st : EncSt
  val : Byte
  len : Byte
deriving DecidableEq, Repr

/-- The registers of the DEC unit: `dec.st`, `dec.val` (10_state.md R15, R16). -/
structure DecUnit where
  st : DecSt
  val : Byte
deriving DecidableEq, Repr

/-- The status a step reports (00_scope.md R6, 10_state.md R20). `malformedInput` is the one exception of the CORE (60_exceptions.md R130). -/
inductive Status where
  | ok
  | malformedInput
deriving DecidableEq, Repr

/-- The machine. The first two fields are all the registers there are (10_state.md R21). The others are not registers but what
passes between the CORE and the host (R23, R27). -/
structure State where
  /-- The ENC unit's registers. -/
  enc : EncUnit
  /-- The DEC unit's registers. -/
  dec : DecUnit
  /-- `enc.out`: the bytes the ENC unit has emitted, oldest first (20_memory.md R31, R32; log 6). -/
  encOut : List Byte
  /-- `dec.out`: the bytes the DEC unit has emitted, oldest first (20_memory.md R31, R32; log 6). -/
  decOut : List Byte
  /-- The status the ENC unit last reported, `none` while it has reported none since RESET (log 7). -/
  encStatus : Option Status
  /-- The status the DEC unit last reported, `none` while it has reported none since RESET (log 7). -/
  decStatus : Option Status
  /-- The events the host has yet to present, next one first (the model's own field; log 5). -/
  pending : List Event
deriving DecidableEq, Repr

/-- The machine never stops with a fault, so there is none: no command is illegal in any state (30_encoding.md R59), there is
no stuck state (70_reset_and_hazards.md R163), and MalformedInput is taken as a next state (60_exceptions.md R135; log 9).
Nothing raises one; that is exact, neither safe nor unsafe. -/
inductive Fault
deriving DecidableEq, Repr

/-- Why a step has no meaning. -/
inductive Refusal where
  /-- The instruction of this mnemonic is not modelled: an arm of `exec` would say so, and none does. Safe. -/
  | notModelled (mnemonic : String)
  /-- ENC.BYTE or ENC.END on an ENC register pattern outside 10_state.md R14, which "must not" be given a meaning
  (93_implementation_defined.md V2: `refuse`). Raised by `onLegalEnc`. No run from reset reaches it. Safe (log 8). -/
  | encPatternWithoutMeaning
deriving DecidableEq, Repr

/-- The registers of the ENC unit after reset (10_state.md R26). -/
def encReset : EncUnit := ⟨.idle, 0, 0⟩

/-- The registers of the DEC unit after reset (10_state.md R26). -/
def decReset : DecUnit := ⟨.val, 0⟩

/-- The machine after RESET and at power-on (10_state.md R26, 70_reset_and_hazards.md R152): both output sequences empty,
no status reported (log 7), nothing yet presented by the host (log 5). -/
def State.reset : State where
  enc := encReset
  dec := decReset
  encOut := []
  decOut := []
  encStatus := none
  decStatus := none
  pending := []

end Sys2Proof.Machine
end

