-- ==== Sys2Proof/Machine/Flags.lean ====
section
/-! DEFINITION. The status computations: the codes of the state registers and of a status, the view `dec.err`, the status of a
DEC step, and the legal ENC register patterns. The CORE has no condition codes (10_state.md R19). -/

namespace Sys2Proof.Machine

/-- The encoding of `enc.st` (10_state.md R11). -/
def encStCode : EncSt → BitVec 1
  | .idle => 0
  | .run => 1

/-- The encoding of `dec.st` (10_state.md R15). -/
def decStCode : DecSt → BitVec 2
  | .val => 0
  | .cnt => 1
  | .err => 2

/-- Statuses as numbers (10_state.md R20, 60_exceptions.md R130). -/
def statusCode : Status → Nat
  | .ok => Config.okCode
  | .malformedInput => Config.errCodeMalformed

/-- `dec.err`, a view of `dec.st` (10_state.md R19). -/
def decErr (d : DecUnit) : BitVec 1 :=
  match d.st with
  | .val => 0
  | .cnt => 0
  | .err => 1

/-- The status of a DEC step, from the unit's registers after it (10_state.md R20). -/
def decStatusOf (d : DecUnit) : Status :=
  match d.st with
  | .val => .ok
  | .cnt => .ok
  | .err => .malformedInput

/-- The ENC invariant of 10_state.md R14: IDLE with both data registers 0, or RUN with a length of 1 to 255. -/
def encLegal (u : EncUnit) : Bool :=
  match u.st with
  | .idle => u.val == 0 && u.len == 0
  | .run => u.len != 0

/-- The test `b = enc.val and enc.len < 255` of 40_encoder.md R71, both unsigned (R74). -/
def runContinues (u : EncUnit) (b : Byte) : Bool := b == u.val && u.len.toNat < Config.cap

end Sys2Proof.Machine
end

