-- ==== Sys2Proof/Machine/Operands.lean ====
section
/-! DEFINITION. The operand of a command and the bytes made from it. The one operand is `data`, 8 bits, unsigned, used as it
stands (30_encoding.md R55). -/

namespace Sys2Proof.Machine

/-- A byte read as a count: `c` means `c` copies, no sign, no offset, no scaling (41_decoder.md R94). -/
def asCount (b : Byte) : Nat := b.toNat

/-- `rep(n, v)`: `n` copies of byte `v` (00_scope.md R5). -/
def rep (n : Nat) (v : Byte) : List Byte := List.replicate n v

/-- What a pair means: `rep(count, value)` (30_encoding.md R56). -/
def pairMeaning (value count : Byte) : List Byte := rep (asCount count) value

/-- `PAIR_ORDER`, the named contract of 42_codec_laws.md R120: the value byte first, the count byte second (20_memory.md R33). -/
def pairBytes (value count : Byte) : List Byte := [value, count]

/-- What the ENC unit emits when a run closes and the next starts: the count of the first, then the value of the second
(40_encoder.md R71). -/
def closeRun (len next : Byte) : List Byte := [len, next]

end Sys2Proof.Machine
end

