-- ==== Sys2Proof/Machine/Ops.lean ====
section
/-! DEFINITION. The operations the meanings share: writing a unit's registers, `Emit`, reporting a status, raising
MalformedInput, RESET, and taking the host's next event. -/

namespace Sys2Proof.Machine

/-- What a step answers. -/
abbrev Result := Host.Outcome State Fault Refusal

/-- `Emit(bytes)` of the ENC unit: append to `enc.out` (20_memory.md R32). -/
def emitEnc (bytes : List Byte) (s : State) : State := { s with encOut := s.encOut ++ bytes }

/-- `Emit(bytes)` of the DEC unit: append to `dec.out` (20_memory.md R32). -/
def emitDec (bytes : List Byte) (s : State) : State := { s with decOut := s.decOut ++ bytes }

/-- Writes the ENC unit's registers. -/
def setEnc (u : EncUnit) (s : State) : State := { s with enc := u }

/-- Writes the DEC unit's registers. -/
def setDec (u : DecUnit) (s : State) : State := { s with dec := u }

/-- The status of an ENC step is `OK`, always (10_state.md R20, 40_encoder.md R75). -/
def reportEnc (s : State) : State := { s with encStatus := some .ok }

/-- The status of a DEC step, from the registers after it (10_state.md R20). -/
def reportDec (s : State) : State := { s with decStatus := some (decStatusOf s.dec) }

/-- `raise MalformedInput` (60_exceptions.md R132, R135): `dec.st <- ERR`, `dec.val` unchanged, nothing emitted, nothing saved
elsewhere; the status follows from `dec.st`. -/
def raiseMalformedInput (s : State) : State := reportDec (setDec { s.dec with st := .err } s)

/-- RESET (70_reset_and_hazards.md R150): both units to their reset values, no byte emitted, none withdrawn, no status
reported. It is the only way out of ERR (60_exceptions.md R137): the CORE's return from its exception. -/
def resetCore (s : State) : State :=
  { s with enc := encReset, dec := decReset, encStatus := none, decStatus := none }

/-- An ENC command runs on the legal register patterns; the others have no meaning (10_state.md R14,
93_implementation_defined.md V2: `refuse`; log 8). -/
def onLegalEnc (s : State) (k : State → State) : Result :=
  if encLegal s.enc then .next (k s) else .refused .encPatternWithoutMeaning

/-- The second step after the first, if the first answers a next state. -/
def andThen {σ φ ρ : Type} (r : Host.Outcome σ φ ρ) (f : σ → Host.Outcome σ φ ρ) : Host.Outcome σ φ ρ :=
  match r with
  | .next s => f s
  | .fault e => .fault e
  | .refused e => .refused e

/-- The host's next event, and the machine with it taken (10_state.md R10; log 5). -/
def nextEvent (s : State) : Option (Event × State) :=
  match s.pending with
  | [] => none
  | e :: rest => some (e, { s with pending := rest })

/-- The machine with events the host is about to present placed before those already waiting. -/
def present (es : List Event) (s : State) : State := { s with pending := es ++ s.pending }

end Sys2Proof.Machine
end

