-- ==== Sys2Proof/Machine/Dec.lean ====
section
/-! DEFINITION. The commands of the DEC unit (41_decoder.md R91, R92) and the pair of encoded data (30_encoding.md R56). -/

namespace Sys2Proof.Machine

/-- `DEC.BYTE b` as it changes the machine (41_decoder.md R91): in VAL `b` is a value, in CNT the count of the held value, in
ERR nothing happens. The status is a function of `dec.st` after the step (10_state.md R20). -/
def decByteStep (b : Byte) (s : State) : State :=
  match s.dec.st with
  | .val => reportDec (setDec ⟨.cnt, b⟩ s)
  | .cnt => reportDec (setDec { s.dec with st := .val } (emitDec (pairMeaning s.dec.val b) s))
  | .err => reportDec s

/-- `DEC.BYTE b` (41_decoder.md R91). -/
def execDecByte (b : Byte) (s : State) : Result := .next (decByteStep b s)

/-- `DEC.END` (41_decoder.md R92): back to the reset state from VAL, MalformedInput raised in CNT, nothing in ERR. -/
def execDecEnd (s : State) : Result :=
  match s.dec.st with
  | .val => .next (reportDec (setDec decReset s))
  | .cnt => .next (raiseMalformedInput s)
  | .err => .next (reportDec s)

/-- `PAIR` (30_encoding.md R56) presented to the DEC unit: `DEC.PAIR v, c` of R62, that is its two bytes in index order, each
a `DEC.BYTE` (log 1, log 2). -/
def execPair (value count : Byte) (s : State) : Result := .next (decByteStep count (decByteStep value s))

end Sys2Proof.Machine
end

