-- ==== Sys2Proof/Machine/Enc.lean ====
section
/-! DEFINITION. The commands of the ENC unit (40_encoder.md R71, R72). -/

namespace Sys2Proof.Machine

/-- A run of value `b` starts: `enc.val <- b; enc.len <- 1; enc.st <- RUN` (40_encoder.md R71). -/
def startRun (b : Byte) : EncUnit := ⟨.run, b, 1⟩

/-- The run goes on: `enc.len <- enc.len + 1`, made only below 255, so it never wraps (40_encoder.md R71, R74). -/
def continueRun (u : EncUnit) : EncUnit := { u with len := u.len + 1 }

/-- The bytes `ENC.BYTE b` emits (40_encoder.md R71, with the schedule `EMIT_TIMING`, 92_eei_decisions.md D4). -/
def encByteEmits (u : EncUnit) (b : Byte) : List Byte :=
  match u.st with
  | .idle => [b]
  | .run => if runContinues u b then [] else closeRun u.len b

/-- The ENC registers after `ENC.BYTE b` (40_encoder.md R71). -/
def encByteRegs (u : EncUnit) (b : Byte) : EncUnit :=
  match u.st with
  | .idle => startRun b
  | .run => if runContinues u b then continueRun u else startRun b

/-- The bytes `ENC.END` emits: the count of the open run, if any (40_encoder.md R72). -/
def encEndEmits (u : EncUnit) : List Byte :=
  match u.st with
  | .idle => []
  | .run => [u.len]

/-- `ENC.BYTE b` (40_encoder.md R71). -/
def execEncByte (b : Byte) (s : State) : Result :=
  onLegalEnc s fun s => reportEnc (setEnc (encByteRegs s.enc b) (emitEnc (encByteEmits s.enc b) s))

/-- `ENC.END` (40_encoder.md R72). -/
def execEncEnd (s : State) : Result :=
  onLegalEnc s fun s => reportEnc (setEnc encReset (emitEnc (encEndEmits s.enc) s))

end Sys2Proof.Machine
end

