-- ==== Sys2Proof/Machine/Dispatch.lean ====
section
/-! DEFINITION. The meaning of every instruction, one arm each. -/

namespace Sys2Proof.Machine

def exec (i : Instr) (s : State) : Host.Outcome State Fault Refusal :=
  match i with
  | .encByte b => Sys2Proof.Machine.execEncByte b s
  | .encEnd => Sys2Proof.Machine.execEncEnd s
  | .decByte b => Sys2Proof.Machine.execDecByte b s
  | .decEnd => Sys2Proof.Machine.execDecEnd s
  | .pair value count => Sys2Proof.Machine.execPair value count s

end Sys2Proof.Machine
end

