-- ==== Sys2Proof/Machine/Step.lean ====
section
/-! DEFINITION. One step of the machine: the response to the host's next event (00_scope.md R7, 10_state.md R10). -/

namespace Sys2Proof.Machine

/-- The response to one event: RESET, which wins over an item presented with it (70_reset_and_hazards.md R150), or the
instruction the item stands for. -/
def handle (e : Event) (s : State) : Host.Outcome State Fault Refusal :=
  match e with
  | .reset _ => .next (resetCore s)
  | .present item => exec (decode item) s

/-- One step. With no event a unit "is simply holding its registers" (60_exceptions.md R144; log 5). -/
def step (s : State) : Host.Outcome State Fault Refusal :=
  match nextEvent s with
  | none => .next s
  | some (e, s') => handle e s'

/-- The machine with a table word's item placed where `step` takes its next event (log 3, log 5). A number that is no item
leaves the machine as it is. -/
def State.withFetchWord (s : State) (nbits w : Nat) : State :=
  match itemOfTableWord nbits w with
  | some item => present [.present item] s
  | none => s

end Sys2Proof.Machine
end

