-- ==== Sys2Proof/Machine/Codec.lean ====
section
/-! DEFINITION. The function layer (00_scope.md section 1): the two functions the machine must compute, the predicates on
encoded data, and the maximal runs of raw data. Lengths are natural numbers here; the 8-bit register is the machine's. -/

namespace Sys2Proof.Machine

/-- The result of `decode` (41_decoder.md R90), and of a run of a unit (70_reset_and_hazards.md R154): a byte sequence, or
the error alone. -/
inductive CodecResult where
  | bytes (out : List Byte)
  | malformedInput
deriving DecidableEq, Repr

/-- A count as the byte it is emitted as. -/
def countByte (n : Nat) : Byte := BitVec.ofNat 8 n

/-- The loop of 40_encoder.md R70 from a current run `(val, len)`: what is still appended, the last count included. -/
def rleEncodeFrom (val : Byte) (len : Nat) : List Byte → List Byte
  | [] => [countByte len]
  | b :: rest =>
    if b = val ∧ len < Config.cap then rleEncodeFrom val (len + 1) rest
    else closeRun (countByte len) b ++ rleEncodeFrom b 1 rest

/-- `encode` of 40_encoder.md R70. -/
def rleEncode : List Byte → List Byte
  | [] => []
  | b :: rest => b :: rleEncodeFrom b 1 rest

/-- The loop of 41_decoder.md R90 with the output so far. -/
def rleDecodeFrom (out : List Byte) : List Byte → CodecResult
  | [] => .bytes out
  | [_] => .malformedInput
  | value :: count :: rest => rleDecodeFrom (out ++ rep (asCount count) value) rest

/-- `decode` of 41_decoder.md R90. -/
def rleDecode (input : List Byte) : CodecResult := rleDecodeFrom [] input

/-- Two decodings one after the other (42_codec_laws.md R118): an error on either side is the error. -/
def joinResults : CodecResult → CodecResult → CodecResult
  | .bytes a, .bytes b => .bytes (a ++ b)
  | _, _ => .malformedInput

/-- The complete pairs of a byte sequence, read at even and odd indices (20_memory.md R33, R34); a last value without its count
is no pair. -/
def pairsOf : List Byte → List (Byte × Byte)
  | value :: count :: rest => (value, count) :: pairsOf rest
  | _ => []

/-- Pairs laid out as encoded data (20_memory.md R33, 30_encoding.md R58). -/
def bytesOfPairs (ps : List (Byte × Byte)) : List Byte := ps.flatMap fun p => pairBytes p.1 p.2

/-- `Decodable(e)` of 20_memory.md R43. -/
def decodable (e : List Byte) : Bool := e.length % 2 == 0

/-- No neighbouring pairs have the same value, except after a count of 255, and no count is 0 (20_memory.md R43). -/
def canonicalPairs : List (Byte × Byte) → Bool
  | [] => true
  | [p] => p.2 != 0
  | p :: q :: rest => p.2 != 0 && (p.1 != q.1 || asCount p.2 == Config.cap) && canonicalPairs (q :: rest)

/-- `Canonical(e)` of 20_memory.md R43, the form that does not mention the encoder. -/
def canonical (e : List Byte) : Bool := decodable e && canonicalPairs (pairsOf e)

/-- The sum of the count bytes of encoded data (42_codec_laws.md R117). -/
def countSum (e : List Byte) : Nat := ((pairsOf e).map fun p => asCount p.2).sum

/-- One more byte before maximal runs: it joins the first if it is the same, else it is a run of its own. -/
def consRun (b : Byte) : List (Byte × Nat) → List (Byte × Nat)
  | [] => [(b, 1)]
  | (v, n) :: rest => if b = v then (v, n + 1) :: rest else (b, 1) :: (v, n) :: rest

/-- The maximal runs of raw data, from the left: value and length (00_scope.md R8). -/
def maximalRuns : List Byte → List (Byte × Nat)
  | [] => []
  | b :: rest => consRun b (maximalRuns rest)

/-- The pairs of a maximal run of length `n` (40_encoder.md R73): the full ones first, then the remainder if there is one. -/
def runPairs (v : Byte) (n : Nat) : List (Byte × Byte) :=
  List.replicate (n / Config.cap) (v, countByte Config.cap) ++
    if n % Config.cap = 0 then [] else [(v, countByte (n % Config.cap))]

/-- `ceil(n / 255)` (40_encoder.md R73). -/
def pairsNeeded (n : Nat) : Nat := (n + (Config.cap - 1)) / Config.cap

/-- The length of the longest suffix of bytes equal to `v`, of a sequence given in reverse (40_encoder.md R77). -/
def suffixLength (v : Byte) (reversed : List Byte) : Nat := (reversed.takeWhile (· == v)).length

end Sys2Proof.Machine
end

