-- ==== Sys2Proof/Machine/Notation.lean ====
section
/-! DEFINITION. The notation of command traces (30_encoding.md R61) and its pseudo-commands (R62): reading a line's characters, and
the events a line stands for. Blanks, blank lines and leading zeros are the model's (DESIGN CHOICE, log 14), and so is the
form of the `n` of `ENC.RUN v, n` (DESIGN CHOICE, log 16). -/

namespace Sys2Proof.Machine

/-! ### From lines to events -/

/-- The host presents an instruction: its canonical item. -/
def presents (i : Instr) : Event := .present (encode i)

/-- `ENC.STREAM` (30_encoding.md R62): the bytes, then `ENC.END`. -/
def encStream (bs : List Byte) : List Event := bs.map (fun b => presents (.encByte b)) ++ [presents .encEnd]

/-- `DEC.STREAM` (30_encoding.md R62): the bytes, then `DEC.END`. -/
def decStream (bs : List Byte) : List Event := bs.map (fun b => presents (.decByte b)) ++ [presents .decEnd]

/-- The events of a line: itself, or the expansion of 30_encoding.md R62. -/
def lineEvents : TraceLine → List Event
  | .encByte b => [presents (.encByte b)]
  | .encEnd => [presents .encEnd]
  | .decByte b => [presents (.decByte b)]
  | .decEnd => [presents .decEnd]
  | .reset => [.reset none]
  | .encStream bs => encStream bs
  | .decStream bs => decStream bs
  | .decPair v c => [presents (.decByte v), presents (.decByte c)]
  | .encRun v n => List.replicate n (presents (.encByte v))

/-- A program is a finite sequence of lines (30_encoding.md R61). -/
def programEvents (ls : List TraceLine) : List Event := ls.flatMap lineEvents

/-! ### Reading characters -/

/-- The value of a decimal digit. -/
def decDigit (c : Char) : Option Nat := if 48 ≤ c.toNat ∧ c.toNat ≤ 57 then some (c.toNat - 48) else none

/-- The value of a hexadecimal digit, of either case. -/
def hexDigit (c : Char) : Option Nat :=
  if 97 ≤ c.toNat ∧ c.toNat ≤ 102 then some (c.toNat - 87)
  else if 65 ≤ c.toNat ∧ c.toNat ≤ 70 then some (c.toNat - 55)
  else decDigit c

/-- The digits of a number, most significant first, after the digits read so far. -/
def readDigits (base : Nat) (digit : Char → Option Nat) (acc : Nat) : List Char → Option Nat
  | [] => some acc
  | c :: cs =>
    match digit c with
    | some d => readDigits base digit (acc * base + d) cs
    | none => none

/-- A decimal number: at least one digit, and any number of them (a decimal `<byte>` of 30_encoding.md R61; the `n` of R62, log 16). -/
def readDecimal : List Char → Option Nat
  | [] => none
  | cs => readDigits 10 decDigit 0 cs

/-- `<byte>` (30_encoding.md R61): a decimal number 0 to 255, or `0x` and one or two hexadecimal digits. -/
def readByte (cs : List Char) : Option Byte :=
  let n := match cs with
    | ['0', 'x', h] => readDigits 16 hexDigit 0 [h]
    | ['0', 'x', h, l] => readDigits 16 hexDigit 0 [h, l]
    | cs => readDecimal cs
  match n with
  | some n => if n ≤ 255 then some (BitVec.ofNat 8 n) else none
  | none => none

/-- A token read so far, if it has a character. -/
def flushToken : List Char → List (List Char)
  | [] => []
  | cs => [cs]

/-- The tokens of a line after the characters `cur` of a token: blanks separate, a comma and the brackets stand for themselves, a
`;` starts a comment to the end of the line (30_encoding.md R61). -/
def tokensFrom (cur : List Char) : List Char → List (List Char)
  | [] => flushToken cur
  | c :: cs =>
    if c = ';' then flushToken cur
    else if c = ' ' ∨ c = '\t' ∨ c = '\r' then flushToken cur ++ tokensFrom [] cs
    else if c = ',' ∨ c = '[' ∨ c = ']' then flushToken cur ++ [c] :: tokensFrom [] cs
    else tokensFrom (cur ++ [c]) cs

/-- The tokens of a line. -/
def tokens (line : List Char) : List (List Char) := tokensFrom [] line

/-- The rest of a list after its first element: `, b, b ]`. -/
def readListTail : List (List Char) → Option (List Byte)
  | [[']']] => some []
  | [','] :: t :: rest =>
    match readByte t, readListTail rest with
    | some b, some bs => some (b :: bs)
    | _, _ => none
  | _ => none

/-- A list of bytes `[b0, b1, …]` (30_encoding.md R62). -/
def readList : List (List Char) → Option (List Byte)
  | [['['], [']']] => some []
  | ['['] :: t :: rest =>
    match readByte t, readListTail rest with
    | some b, some bs => some (b :: bs)
    | _, _ => none
  | _ => none

/-- The operands of a mnemonic (30_encoding.md R61, R62). How the `n` of `ENC.RUN v, n` is written is the model's: decimal digits in
any number, and no `0x` form, since R61 fixes the form of `<byte>` only and R62 is silent (DESIGN CHOICE, log 16). -/
def readOperands (mnemonic : List Char) (args : List (List Char)) : Option TraceLine :=
  if mnemonic = ['E', 'N', 'C', '.', 'B', 'Y', 'T', 'E'] then
    match args with
    | [t] => (readByte t).map .encByte
    | _ => none
  else if mnemonic = ['E', 'N', 'C', '.', 'E', 'N', 'D'] then (if args = [] then some .encEnd else none)
  else if mnemonic = ['D', 'E', 'C', '.', 'B', 'Y', 'T', 'E'] then
    match args with
    | [t] => (readByte t).map .decByte
    | _ => none
  else if mnemonic = ['D', 'E', 'C', '.', 'E', 'N', 'D'] then (if args = [] then some .decEnd else none)
  else if mnemonic = ['R', 'E', 'S', 'E', 'T'] then (if args = [] then some .reset else none)
  else if mnemonic = ['E', 'N', 'C', '.', 'S', 'T', 'R', 'E', 'A', 'M'] then (readList args).map .encStream
  else if mnemonic = ['D', 'E', 'C', '.', 'S', 'T', 'R', 'E', 'A', 'M'] then (readList args).map .decStream
  else if mnemonic = ['D', 'E', 'C', '.', 'P', 'A', 'I', 'R'] then
    match args with
    | [v, [','], c] =>
      match readByte v, readByte c with
      | some v, some c => some (.decPair v c)
      | _, _ => none
    | _ => none
  else if mnemonic = ['E', 'N', 'C', '.', 'R', 'U', 'N'] then
    match args with
    | [v, [','], n] =>
      match readByte v, readDecimal n with
      | some v, some n => some (.encRun v n)
      | _, _ => none
    | _ => none
  else none

/-- What a line of characters is. -/
inductive ReadLine where
  /-- Nothing but blanks and a comment. -/
  | blank
  | line (l : TraceLine)
  /-- No line of the notation, or one whose side condition fails (`ENC.RUN v, 0`). -/
  | notALine
deriving DecidableEq, Repr

/-- Reads one line (30_encoding.md R61, R62). -/
def readLine (cs : List Char) : ReadLine :=
  match tokens cs with
  | [] => .blank
  | m :: args =>
    match readOperands m args with
    | some l => if l.wf then .line l else .notALine
    | none => .notALine

/-- A text cut at its line ends, after the characters `cur` of a line. -/
def linesFrom (cur : List Char) : List Char → List (List Char)
  | [] => [cur]
  | c :: cs => if c = '\n' then cur :: linesFrom [] cs else linesFrom (cur ++ [c]) cs

/-- The lines of a program's text, blank ones left out; `none` if some line is none of the notation. -/
def readLines : List (List Char) → Option (List TraceLine)
  | [] => some []
  | cs :: rest =>
    match readLine cs, readLines rest with
    | .blank, some ls => some ls
    | .line l, some ls => some (l :: ls)
    | _, _ => none

/-- Reads a program (30_encoding.md R61). -/
def readProgram (text : List Char) : Option (List TraceLine) := readLines (linesFrom [] text)

/-! ### Writing lines -/

/-- A hexadecimal digit as a character. -/
def hexChar (n : Nat) : Char := if n < 10 then Char.ofNat (48 + n) else Char.ofNat (87 + n)

/-- A byte as `0x` and two hexadecimal digits. -/
def writeByte (b : Byte) : List Char := ['0', 'x', hexChar (b.toNat / 16), hexChar (b.toNat % 16)]

/-- An instruction as a line of the notation; a pair is `DEC.PAIR v, c`. -/
def writeInstr : Instr → List Char
  | .encByte b => ['E', 'N', 'C', '.', 'B', 'Y', 'T', 'E', ' '] ++ writeByte b
  | .encEnd => ['E', 'N', 'C', '.', 'E', 'N', 'D']
  | .decByte b => ['D', 'E', 'C', '.', 'B', 'Y', 'T', 'E', ' '] ++ writeByte b
  | .decEnd => ['D', 'E', 'C', '.', 'E', 'N', 'D']
  | .pair v c => ['D', 'E', 'C', '.', 'P', 'A', 'I', 'R', ' '] ++ writeByte v ++ [',', ' '] ++ writeByte c

/-- The line an instruction is. -/
def lineOf : Instr → TraceLine
  | .encByte b => .encByte b
  | .encEnd => .encEnd
  | .decByte b => .decByte b
  | .decEnd => .decEnd
  | .pair v c => .decPair v c

/-- `DEC.PAIR v, c` is "valid as a description only when the DEC unit is in state VAL" (30_encoding.md R62); every other line is
valid in every state. -/
def lineValidIn (d : DecUnit) : TraceLine → Bool
  | .decPair _ _ => d.st == .val
  | .encByte _ => true
  | .encEnd => true
  | .decByte _ => true
  | .decEnd => true
  | .reset => true
  | .encStream _ => true
  | .decStream _ => true
  | .encRun _ _ => true

end Sys2Proof.Machine
end

