-- ==== Sys2Proof/Safety.lean ====
section
/-! DEFINITION. What counts as a safe run: the invariant, the reachable states, the result of a run of a unit
(70_reset_and_hazards.md R154), and the host's rules of use (R153, R155, R159, 10_state.md R27). -/

namespace Sys2Proof.Machine

/-- The invariant of the machine: a legal ENC register pattern (10_state.md R14), `OK` from every ENC step (40_encoder.md R75), and
MalformedInput as the DEC unit's last status exactly in state ERR (10_state.md R20). `dec.st` is never 3 by its type (R17). -/
abbrev Inv (s : State) : Prop :=
  encLegal s.enc = true ∧ s.encStatus ≠ some .malformedInput ∧ (s.decStatus = some .malformedInput ↔ s.dec.st = .err)

/-- No fault is recorded: the premise of a claim about a DEC stream (60_exceptions.md R137). -/
abbrev noErrorRecorded (s : State) : Prop := decErr s.dec = 0

/-- `k` steps, stopping at the first that answers no next state: `Host.Core.run` of the machine, with its types written out
(`runSteps_eq_core_run` in Laws/Step.lean). -/
def runSteps : Nat → State → Host.Outcome State Fault Refusal
  | 0, s => .next s
  | k + 1, s => andThen (step s) (runSteps k)

/-- The machine after a host has presented all of `es`, if every step answers a next state. -/
def runEvents (es : List Event) (s : State) : Host.Outcome State Fault Refusal := runSteps es.length (present es s)

/-- A state some finite sequence of events leads to from reset (10_state.md R14, R17: "by any command sequence"). -/
def Reachable (s : State) : Prop :=
  ∃ es : List Event, ∃ k : Nat, runSteps k (present es State.reset) = .next s

/-! ### The two sides of the machine -/

/-- The instruction is a command of the ENC unit. -/
def isEncInstr : Instr → Bool
  | .encByte _ => true
  | .encEnd => true
  | .decByte _ => false
  | .decEnd => false
  | .pair _ _ => false

/-- The registers, output and status of the ENC unit. -/
def encSide (s : State) : EncUnit × List Byte × Option Status := (s.enc, s.encOut, s.encStatus)

/-- The registers, output and status of the DEC unit. -/
def decSide (s : State) : DecUnit × List Byte × Option Status := (s.dec, s.decOut, s.decStatus)

/-- The host presents the bytes to the ENC unit, with no END. -/
def encBytes (p : List Byte) : List Event := p.map fun b => presents (.encByte b)

/-- The host presents the bytes to the DEC unit, with no END. -/
def decBytes (p : List Byte) : List Event := p.map fun b => presents (.decByte b)

/-! ### The result of a run -/

/-- The host takes a unit's output sequences to be empty at the start of a run (20_memory.md R32, 70_reset_and_hazards.md R153 (2)). -/
def takeOutputs (s : State) : State := { s with encOut := [], decOut := [] }

/-- The bytes an event gives a unit's input. -/
def inputOf (u : CodecUnit) : Event → List Byte
  | .reset _ => []
  | .present item =>
    match u, decode item with
    | .enc, .encByte b => [b]
    | .dec, .decByte b => [b]
    | .dec, .pair v c => pairBytes v c
    | _, _ => []

/-- The event is the END command of a unit. -/
def endsStream (u : CodecUnit) : Event → Bool
  | .reset _ => false
  | .present item =>
    match u, decode item with
    | .enc, .encEnd => true
    | .dec, .decEnd => true
    | _, _ => false

/-- The event is RESET. -/
def isReset : Event → Bool
  | .reset _ => true
  | .present _ => false

/-- What the host makes of a unit's run at its END: the bytes the unit emitted, or, on `MalformedInput`, the error alone, the
bytes being void (70_reset_and_hazards.md R154, 60_exceptions.md R145 (a)). -/
def resultAtEnd (u : CodecUnit) (t : State) : CodecResult :=
  match u with
  | .enc => .bytes t.encOut
  | .dec => if t.decStatus = some .malformedInput then .malformedInput else .bytes t.decOut

/-- A step on one event. -/
def stepOn (e : Event) (s : State) : Host.Outcome State Fault Refusal := step { s with pending := [e] }

/-- The result of the run that starts at `s`: it ends at the first END for the unit, and a run that RESET cuts short, or that
never comes to END, has none (70_reset_and_hazards.md R154). -/
def runResult (u : CodecUnit) : List Event → State → Option CodecResult
  | [], _ => none
  | e :: es, s =>
    if isReset e then none
    else
      match stepOn e s with
      | .next t => if endsStream u e then some (resultAtEnd u t) else runResult u es t
      | .fault _ => none
      | .refused _ => none

/-! ### The host's rules of use -/

/-- Which streams the host has open: a BYTE presented and no END or RESET since. -/
structure HostView where
  encOpen : Bool
  decOpen : Bool
deriving DecidableEq, Repr

/-- The host's view after an event. -/
def viewAfter (v : HostView) : Event → HostView
  | .reset _ => ⟨false, false⟩
  | .present item =>
    match decode item with
    | .encByte _ => { v with encOpen := true }
    | .encEnd => { v with encOpen := false }
    | .decByte _ => { v with decOpen := true }
    | .decEnd => { v with decOpen := false }
    | .pair _ _ => { v with decOpen := true }

/-- The event is for the DEC unit. -/
def isDecEvent : Event → Bool
  | .reset _ => false
  | .present item =>
    match decode item with
    | .encByte _ => false
    | .encEnd => false
    | .decByte _ => true
    | .decEnd => true
    | .pair _ _ => true

/-- After MalformedInput, nothing to the DEC unit before RESET (60_exceptions.md R145 (b), 70_reset_and_hazards.md R159). -/
def eventAllowed (s : State) (e : Event) : Bool := !(isDecEvent e && s.dec.st == .err)

/-- The rules of use from a state on: every event allowed, and every stream closed by its END (or given up by RESET) at the last
event (10_state.md R27, 70_reset_and_hazards.md R155). -/
def followsFrom (v : HostView) : List Event → State → Bool
  | [], _ => !v.encOpen && !v.decOpen
  | e :: es, s =>
    eventAllowed s e &&
      match stepOn e s with
      | .next t => followsFrom (viewAfter v e) es t
      | .fault _ => false
      | .refused _ => false

/-- A host that follows the rules issues RESET first (70_reset_and_hazards.md R153 (1)) (log 15). -/
def hostFollowsRules : List Event → Bool
  | .reset _ :: es => followsFrom ⟨false, false⟩ es State.reset
  | _ => false

end Sys2Proof.Machine
end

