-- ==== Sys2Proof/Certificates/Slice0/Obligations.lean ====
section
/-! DEFINITION. The statements for the provers. Each docstring names the rules of spec/ it formalises; where a clause rests on a
choice of the model, it names the log entry. -/

open Sys2Proof
open Sys2Proof.Machine

/-! ### Reset, steps, events -/

/-- 10_state.md R26: the value of every piece of state after RESET and at power-on. -/
def Obligations.ResetHoldsTheSpecifiedValues : Prop :=
  State.reset.enc.st = .idle ∧ encStCode State.reset.enc.st = 0 ∧ State.reset.enc.val = 0 ∧ State.reset.enc.len = 0 ∧
    State.reset.dec.st = .val ∧ decStCode State.reset.dec.st = 0 ∧ State.reset.dec.val = 0 ∧ decErr State.reset.dec = 0 ∧
    State.reset.encOut = [] ∧ State.reset.decOut = []

/-- The invariant `Inv` (10_state.md R14, R20, 40_encoder.md R75) holds after reset. -/
def Obligations.ResetMeetsTheInvariant : Prop := Inv State.reset

/-- 70_reset_and_hazards.md R150: RESET, alone or with an item presented beside it, in every state: both units reset, the item
dropped, no byte emitted and none withdrawn. The clause that both status fields become `none` is the model's choice (log 7): R150
says only that RESET "reports no status". -/
def Obligations.ResetEventRestoresBothUnits : Prop :=
  ∀ (dropped : Option Item) (rest : List Event) (s : State), s.pending = .reset dropped :: rest →
    step s = .next
      { enc := ⟨.idle, 0, 0⟩, dec := ⟨.val, 0⟩, encOut := s.encOut, decOut := s.decOut,
        encStatus := none, decStatus := none, pending := rest }

/-- With no event the machine holds its state (10_state.md R10, 60_exceptions.md R144); that the model has such a step is log 5. -/
def Obligations.IdleStepHoldsTheState : Prop := ∀ s : State, s.pending = [] → step s = .next s

/-- A step runs the instruction its item decodes to, on the machine with that item taken (log 5). Every instruction is well
formed (30_encoding.md R59). -/
def Obligations.StepRunsTheDecodedItem : Prop :=
  ∀ (item : Item) (rest : List Event) (s : State), s.pending = .present item :: rest →
    (decode item).wf = true ∧ step s = exec (decode item) { s with pending := rest }

/-! ### Encodings -/

/-- 30_encoding.md R51, R52: the fields of a word, the mask and match of each row and its range of words, totality, and the
words of the BYTE commands. -/
def Obligations.CommandWordsDecodeByTheirFields : Prop :=
  (∀ (unit ended : BitVec 1) (data : Byte),
    decode (.command (unit ++ ended ++ data)) =
      if unit = 0 then (if ended = 0 then .encByte data else .encEnd)
      else (if ended = 0 then .decByte data else .decEnd)) ∧
  (∀ w : CmdWord,
    (w &&& 0x300 = 0x000 → decode (.command w) = .encByte (w.extractLsb' 0 8)) ∧
    (w &&& 0x300 = 0x100 → decode (.command w) = .encEnd) ∧
    (w &&& 0x300 = 0x200 → decode (.command w) = .decByte (w.extractLsb' 0 8)) ∧
    (w &&& 0x300 = 0x300 → decode (.command w) = .decEnd) ∧
    (commandRows.filter fun r => rowMatches r w).map Row.mnemonic = [mnemonicOf (decode (.command w))] ∧
    (w &&& 0x300 = 0x000 ↔ w ≤ 0x0FF) ∧
    (w &&& 0x300 = 0x100 ↔ 0x100 ≤ w ∧ w ≤ 0x1FF) ∧
    (w &&& 0x300 = 0x200 ↔ 0x200 ≤ w ∧ w ≤ 0x2FF) ∧
    (w &&& 0x300 = 0x300 ↔ 0x300 ≤ w)) ∧
  (∀ b : Byte, encode (.encByte b) = .command (0x000 + b.setWidth 10) ∧
    encode (.decByte b) = .command (0x200 + b.setWidth 10))

/-- 30_encoding.md R53: the data of an END is ignored; the canonical words have data 0; re-encoding gives exactly the canonical
words back; decoding gives every encoded instruction back. -/
def Obligations.ReencodingGivesTheCanonicalWord : Prop :=
  (∀ d : Byte, decode (.command (0x100 + d.setWidth 10)) = .encEnd ∧ decode (.command (0x300 + d.setWidth 10)) = .decEnd) ∧
  encode .encEnd = .command 0x100 ∧ encode .decEnd = .command 0x300 ∧
  (∀ w : CmdWord, encode (decode (.command w)) = .command w ↔ (w &&& 0x100 = 0 ∨ w &&& 0x0FF = 0)) ∧
  (∀ i : Instr, decode (encode i) = i)

/-- Words written out bit by bit from 30_encoding.md R50 and R52, and one pair (R56), decode to the instructions they stand for. -/
def Obligations.SampleWordsDecode : Prop :=
  decode (.command 0b0001000001) = .encByte 0x41 ∧ decode (.command 0b0011111111) = .encByte 255 ∧
  decode (.command 0b0100000000) = .encEnd ∧ decode (.command 0b0111111111) = .encEnd ∧
  decode (.command 0b1000000000) = .decByte 0 ∧ decode (.command 0b1011111111) = .decByte 255 ∧
  decode (.command 0b1100000000) = .decEnd ∧ decode (.command 0b1110100101) = .decEnd ∧
  decodeBytes .pair [0b01000001, 0b00000011] = .instr (.pair 0x41 3) []

/-- The bytes of any sequence of instructions of one format decode back to it, every operand at every value (30_encoding.md
R51 to R53, R56, R60). The two bytes of a command word are laid out as log 4 says. -/
def Obligations.ByteStreamsDecodeBack : Prop :=
  ∀ (f : Format) (is : List Instr), (∀ i ∈ is, formatOf i = f) →
    decodeAll f is.length (is.flatMap encodeBytes) = some is

/-- When the byte decoder rejects, and by which name: too few bytes in either format, a number of more than ten bits as a command
word; no pair is rejected (30_encoding.md R50, R57, R60). The layout of a command word's bytes is log 4. -/
def Obligations.ByteDecoderRejectsExactly : Prop :=
  ∀ bs : List Byte,
    (bs.length < 2 ↔ decodeBytes .ev bs = .reject .tooFewBytes) ∧
    (bs.length < 2 ↔ decodeBytes .pair bs = .reject .tooFewBytes) ∧
    ((∃ (lo hi : Byte) (rest : List Byte), bs = lo :: hi :: rest ∧ 4 ≤ hi.toNat) ↔
      decodeBytes .ev bs = .reject .notACommandWord) ∧
    decodeBytes .pair bs ≠ .reject .notACommandWord

/-! ### The commands -/

/-- 40_encoder.md R71: `ENC.BYTE b`, its word and its three cases, each an equality of next states. The unit's registers are a
legal pattern (10_state.md R14). -/
def Obligations.EncByteResult : Prop :=
  ∀ (b : Byte) (s : State), encLegal s.enc = true →
    encode (.encByte b) = .command (0x000 + b.setWidth 10) ∧
    (s.enc.st = .idle →
      exec (.encByte b) s = .next { s with enc := ⟨.run, b, 1⟩, encOut := s.encOut ++ [b], encStatus := some .ok }) ∧
    (s.enc.st = .run → b = s.enc.val → s.enc.len < 255 →
      exec (.encByte b) s = .next { s with enc := ⟨.run, s.enc.val, s.enc.len + 1⟩, encStatus := some .ok } ∧
      (s.enc.len + 1).toNat = s.enc.len.toNat + 1) ∧
    (s.enc.st = .run → (b ≠ s.enc.val ∨ s.enc.len = 255) →
      exec (.encByte b) s = .next
        { s with enc := ⟨.run, b, 1⟩, encOut := s.encOut ++ [s.enc.len, b], encStatus := some .ok })

/-- 40_encoder.md R72: `ENC.END`, its words (the data ignored) and its two cases. -/
def Obligations.EncEndResult : Prop :=
  ∀ s : State, encLegal s.enc = true →
    (encode .encEnd = .command 0x100 ∧ ∀ d : Byte, decode (.command (0x100 + d.setWidth 10)) = .encEnd) ∧
    (s.enc.st = .run →
      exec .encEnd s = .next
        { s with enc := ⟨.idle, 0, 0⟩, encOut := s.encOut ++ [s.enc.len], encStatus := some .ok } ∧ 1 ≤ s.enc.len.toNat) ∧
    (s.enc.st = .idle →
      exec .encEnd s = .next { s with enc := ⟨.idle, 0, 0⟩, encStatus := some .ok } ∧ s.enc = ⟨.idle, 0, 0⟩)

/-- On an ENC register pattern without a meaning (93_implementation_defined.md V2: `refuse`) the ENC commands are refused by name and
the others run (the model's choice of the two the spec allows, log 8). -/
def Obligations.EncCommandsAreRefusedOutsideTheInvariant : Prop :=
  ∀ (i : Instr) (s : State), encLegal s.enc = false →
    (isEncInstr i = true → exec i s = .refused .encPatternWithoutMeaning) ∧
    (isEncInstr i = false → ∃ t, exec i s = .next t)

/-- 41_decoder.md R91: `DEC.BYTE b`, its word and its three cases. -/
def Obligations.DecByteResult : Prop :=
  ∀ (b : Byte) (s : State),
    encode (.decByte b) = .command (0x200 + b.setWidth 10) ∧
    (s.dec.st = .val → exec (.decByte b) s = .next { s with dec := ⟨.cnt, b⟩, decStatus := some .ok }) ∧
    (s.dec.st = .cnt →
      exec (.decByte b) s = .next
        { s with dec := ⟨.val, s.dec.val⟩, decOut := s.decOut ++ List.replicate b.toNat s.dec.val,
                 decStatus := some .ok }) ∧
    (s.dec.st = .err → exec (.decByte b) s = .next { s with decStatus := some .malformedInput })

/-- 41_decoder.md R92 and 60_exceptions.md R135: `DEC.END`, its words (the data ignored) and its three cases; in CNT it raises MalformedInput, which
makes `dec.st` ERR and `dec.err` 1, keeps `dec.val`, emits nothing and touches nothing of the ENC unit. -/
def Obligations.DecEndResult : Prop :=
  ∀ s : State,
    (encode .decEnd = .command 0x300 ∧ ∀ d : Byte, decode (.command (0x300 + d.setWidth 10)) = .decEnd) ∧
    (s.dec.st = .val → exec .decEnd s = .next { s with dec := ⟨.val, 0⟩, decStatus := some .ok }) ∧
    (s.dec.st = .cnt →
      exec .decEnd s = .next { s with dec := ⟨.err, s.dec.val⟩, decStatus := some .malformedInput } ∧
      decErr ⟨.err, s.dec.val⟩ = 1) ∧
    (s.dec.st = .err → exec .decEnd s = .next { s with decStatus := some .malformedInput })

/-- A pair presented to the DEC unit (30_encoding.md R56, R62): in VAL it emits `rep(count, value)`. That PAIR is an action of the
machine, and what it does in CNT and ERR, are the model's (log 1, log 2). -/
def Obligations.PairResult : Prop :=
  ∀ (v c : Byte) (s : State),
    (s.dec.st = .val →
      exec (.pair v c) s = .next
        { s with dec := ⟨.val, v⟩, decOut := s.decOut ++ List.replicate c.toNat v, decStatus := some .ok }) ∧
    (s.dec.st = .cnt →
      exec (.pair v c) s = .next
        { s with dec := ⟨.cnt, c⟩, decOut := s.decOut ++ List.replicate v.toNat s.dec.val, decStatus := some .ok }) ∧
    (s.dec.st = .err → exec (.pair v c) s = .next { s with decStatus := some .malformedInput })

/-- What an ENC command leaves unchanged (10_state.md R24, 20_memory.md R32): the DEC unit, its output and status, the events
waiting, and every byte already emitted. -/
def Obligations.EncCommandFrame : Prop :=
  ∀ (i : Instr) (s t : State), isEncInstr i = true → exec i s = .next t →
    t.dec = s.dec ∧ t.decOut = s.decOut ∧ t.decStatus = s.decStatus ∧ t.pending = s.pending ∧
    ∀ k < s.encOut.length, t.encOut[k]? = s.encOut[k]?

/-- What a DEC command or a pair leaves unchanged (10_state.md R24, 20_memory.md R32): the ENC unit, its output and status, the
events waiting, and every byte already emitted. -/
def Obligations.DecCommandFrame : Prop :=
  ∀ (i : Instr) (s t : State), isEncInstr i = false → exec i s = .next t →
    t.enc = s.enc ∧ t.encOut = s.encOut ∧ t.encStatus = s.encStatus ∧ t.pending = s.pending ∧
    ∀ k < s.decOut.length, t.decOut[k]? = s.decOut[k]?

/-- Output widths of a step (20_memory.md R35), with what is emitted contiguous at the end. -/
def Obligations.StepOutputWidths : Prop :=
  ∀ (s t : State),
    (∀ b, exec (.encByte b) s = .next t → ∃ out, t.encOut = s.encOut ++ out ∧ out.length ≤ 2) ∧
    (exec .encEnd s = .next t → ∃ out, t.encOut = s.encOut ++ out ∧ out.length ≤ 1) ∧
    (∀ b, exec (.decByte b) s = .next t →
      ∃ out, t.decOut = s.decOut ++ out ∧ out.length = if s.dec.st = .cnt then b.toNat else 0) ∧
    (exec .decEnd s = .next t → t.decOut = s.decOut)

/-- 10_state.md R20: the status of an ENC step is `OK`; that of a DEC step is MalformedInput exactly when the state after it is
ERR; their numbers are 0 and 1. -/
def Obligations.StatusFollowsTheUnit : Prop :=
  (∀ (i : Instr) (s t : State), exec i s = .next t →
    (isEncInstr i = true → t.encStatus = some .ok) ∧
    (isEncInstr i = false → t.decStatus = some (if t.dec.st = .err then .malformedInput else .ok))) ∧
  statusCode .ok = 0 ∧ statusCode .malformedInput = 1

/-! ### Whole-machine rules -/

/-- 20_memory.md R32: "nothing already emitted is ever changed or removed, by any step, including RESET". -/
def Obligations.OutputsAreNeverWithdrawn : Prop :=
  ∀ (k : Nat) (s t : State), runSteps k s = .next t → s.encOut <+: t.encOut ∧ s.decOut <+: t.decOut

/-- 41_decoder.md R95: a step enters ERR exactly when it handles `DEC.END` in state CNT. -/
def Obligations.MalformedInputIsRaisedOnlyByDecEndInCnt : Prop :=
  ∀ s t : State, s.dec.st ≠ .err → step s = .next t →
    (t.dec.st = .err ↔
      s.dec.st = .cnt ∧ ∃ item rest, s.pending = .present item :: rest ∧ decode item = .decEnd)

/-- 60_exceptions.md R137: in ERR a DEC command changes no register, emits nothing and reports MalformedInput again; no sequence of
commands leaves ERR; RESET does, to the reset state. R137 names DEC.BYTE and DEC.END; that a pair is absorbed too is the model's
choice (log 1, log 2). -/
def Obligations.ErrorStateAbsorbsCommands : Prop :=
  ∀ s : State, s.dec.st = .err →
    (∀ i : Instr, isEncInstr i = false → exec i s = .next { s with decStatus := some .malformedInput }) ∧
    (∀ (k : Nat) (t : State), (∀ e ∈ s.pending, isReset e = false) → runSteps k s = .next t →
      t.dec = s.dec ∧ t.decOut = s.decOut ∧ (s.decStatus = some .malformedInput → t.decStatus = some .malformedInput)) ∧
    (∀ dropped rest, s.pending = .reset dropped :: rest → ∃ t, step s = .next t ∧ t.dec = ⟨.val, 0⟩)

/-- 10_state.md R24: an ENC command and a DEC command give the same state, outputs and statuses in either order. -/
def Obligations.UnitsCommute : Prop :=
  ∀ (i j : Instr) (s : State), isEncInstr i = true → isEncInstr j = false →
    andThen (exec i s) (exec j) = andThen (exec j s) (exec i)

/-- Each unit's registers, output and status after a run depend on that unit's own events and RESET alone, whatever the other unit
holds or is sent (10_state.md R24, 40_encoder.md R79, 41_decoder.md R99). -/
def Obligations.SidesDependOnTheirOwnEvents : Prop :=
  ∀ (es : List Event) (s s' t : State), runEvents es s = .next t →
    (encSide s' = encSide s →
      ∃ t', runEvents (es.filter fun e => !isDecEvent e) s' = .next t' ∧ encSide t' = encSide t) ∧
    (decSide s' = decSide s →
      ∃ t', runEvents (es.filter fun e => isReset e || isDecEvent e) s' = .next t' ∧ decSide t' = decSide t)

/-- Every step keeps the invariant (10_state.md R14, R20, 40_encoder.md R75), from every state that has it. -/
def Obligations.InvariantIsKeptByEveryStep : Prop :=
  ∀ s t : State, Inv s → step s = .next t → Inv t

/-- 70_reset_and_hazards.md R163, 30_encoding.md R59: no state in which a command is not accepted. Every instruction completes on a
legal ENC register pattern, and any events can be presented from any state with the invariant. -/
def Obligations.EveryCommandIsAccepted : Prop :=
  (∀ (i : Instr) (s : State), encLegal s.enc = true → ∃ t, exec i s = .next t) ∧
  (∀ (es : List Event) (s : State), Inv s → ∃ t, runEvents es s = .next t)

/-- 10_state.md R14: the ENC register patterns of reachable states are exactly the legal ones, and there are 65281 of them. -/
def Obligations.EncReachableStates : Prop :=
  (∀ u : EncUnit, (∃ s, Reachable s ∧ s.enc = u) ↔
    (u = ⟨.idle, 0, 0⟩ ∨ (u.st = .run ∧ 1 ≤ u.len.toNat ∧ u.len.toNat ≤ 255))) ∧
  Nat.card { u : EncUnit // encLegal u = true } = 65281

/-- 10_state.md R17: every DEC register pattern with `dec.st` in VAL, CNT or ERR is reachable, `(ERR, v)` too. -/
def Obligations.DecReachableStates : Prop :=
  ∀ u : DecUnit, ∃ s, Reachable s ∧ s.dec = u

/-! ### The units against the functions -/

/-- 40_encoder.md R77: after any raw bytes `p` from the reset state, with no END yet. -/
def Obligations.EncPrefixInvariant : Prop :=
  ∀ (p : List Byte) (s : State), s.enc = ⟨.idle, 0, 0⟩ →
    ∃ t, runEvents (encBytes p) s = .next t ∧
      (p = [] → t.enc.st = .idle ∧ t.encOut = s.encOut) ∧
      (∀ h : p ≠ [], t.enc.st = .run ∧
        (∃ o, t.encOut = s.encOut ++ o ∧ o.length % 2 = 1 ∧ o ++ [t.enc.len] = rleEncode p) ∧
        t.enc.val = p.getLast h ∧
        t.enc.len.toNat = (suffixLength (p.getLast h) p.reverse - 1) % 255 + 1)

/-- 40_encoder.md R78: `ENC.STREAM input` from the reset state emits exactly `encode(input)`, reports `OK` at every step and ends
in the reset state, leaving the DEC unit alone. -/
def Obligations.EncStreamRefinesEncode : Prop :=
  ∀ (input : List Byte) (s : State), s.enc = ⟨.idle, 0, 0⟩ →
    runEvents (encStream input) s =
      .next { s with enc := ⟨.idle, 0, 0⟩, encOut := s.encOut ++ rleEncode input, encStatus := some .ok } ∧
    (∀ k, 1 ≤ k → k ≤ input.length + 1 →
      ∃ t, runEvents ((encStream input).take k) s = .next t ∧ t.encStatus = some .ok)

/-- 41_decoder.md R97: after any encoded bytes `p` from the reset state, with no END yet. -/
def Obligations.DecPrefixInvariant : Prop :=
  ∀ (p : List Byte) (s : State), s.dec = ⟨.val, 0⟩ →
    ∃ t o, runEvents (decBytes p) s = .next t ∧ t.decOut = s.decOut ++ o ∧
      (p.length % 2 = 0 → t.dec.st = .val ∧ rleDecode p = .bytes o) ∧
      (p.length % 2 = 1 → t.dec.st = .cnt ∧ some t.dec.val = p.getLast? ∧ rleDecode p.dropLast = .bytes o)

/-- 41_decoder.md R98: `DEC.STREAM input` from the reset state. On even length the output is `decode(input)`, every status `OK`, the end
the reset state. On odd length every `DEC.BYTE` reports `OK`, `DEC.END` reports MalformedInput, the end is `(ERR, last byte)`, and the
complete pairs have been emitted; the host's result is the error alone. -/
def Obligations.DecStreamRefinesDecode : Prop :=
  ∀ (input : List Byte) (s : State), s.dec = ⟨.val, 0⟩ →
    (∀ k, 1 ≤ k → k ≤ input.length →
      ∃ t, runEvents ((decStream input).take k) s = .next t ∧ t.decStatus = some .ok) ∧
    (input.length % 2 = 0 → ∃ out, rleDecode input = .bytes out ∧
      runEvents (decStream input) s =
        .next { s with dec := ⟨.val, 0⟩, decOut := s.decOut ++ out, decStatus := some .ok }) ∧
    (input.length % 2 = 1 → ∃ out last, rleDecode input = .malformedInput ∧
      rleDecode input.dropLast = .bytes out ∧ input.getLast? = some last ∧
      runEvents (decStream input) s =
        .next { s with dec := ⟨.err, last⟩, decOut := s.decOut ++ out, decStatus := some .malformedInput })

/-- The result of a run of the ENC unit (70_reset_and_hazards.md R154) is `encode` of the bytes it was given, whatever the host
sends to the DEC unit in between; a run cut by RESET, or with no END, has no result. -/
def Obligations.EncRunResult : Prop :=
  ∀ (pre post : List Event) (e : Event) (s : State), s.enc = ⟨.idle, 0, 0⟩ →
    (∀ x ∈ pre, isReset x = false ∧ endsStream .enc x = false) →
    runResult .enc pre (takeOutputs s) = none ∧
    (isReset e = true → runResult .enc (pre ++ e :: post) (takeOutputs s) = none) ∧
    (endsStream .enc e = true →
      runResult .enc (pre ++ e :: post) (takeOutputs s) = some (.bytes (rleEncode (pre.flatMap (inputOf .enc)))))

/-- The result of a run of the DEC unit (70_reset_and_hazards.md R154, 60_exceptions.md R145) is `decode` of the bytes it was given,
the error alone on odd length, whatever the host sends to the ENC unit in between. -/
def Obligations.DecRunResult : Prop :=
  ∀ (pre post : List Event) (e : Event) (s : State), s.dec = ⟨.val, 0⟩ → encLegal s.enc = true →
    (∀ x ∈ pre, isReset x = false ∧ endsStream .dec x = false) →
    runResult .dec pre (takeOutputs s) = none ∧
    (isReset e = true → runResult .dec (pre ++ e :: post) (takeOutputs s) = none) ∧
    (endsStream .dec e = true →
      runResult .dec (pre ++ e :: post) (takeOutputs s) = some (rleDecode (pre.flatMap (inputOf .dec))))

/-- Streams in a row are independent (70_reset_and_hazards.md R151, 40_encoder.md R79, 41_decoder.md R99): the outputs stand one after
the other and nothing of one stream reaches the next. -/
def Obligations.StreamsInARowAreIndependent : Prop :=
  (∀ (inputs : List (List Byte)) (s : State), s.enc = ⟨.idle, 0, 0⟩ → inputs ≠ [] →
    runEvents (inputs.flatMap encStream) s =
      .next { s with encOut := s.encOut ++ inputs.flatMap rleEncode, encStatus := some .ok }) ∧
  (∀ (inputs : List (List (Byte × Byte))) (s : State), s.dec = ⟨.val, 0⟩ → inputs ≠ [] →
    runEvents (inputs.flatMap fun ps => decStream (bytesOfPairs ps)) s =
      .next { s with decOut := s.decOut ++ inputs.flatMap (fun ps => ps.flatMap fun p => pairMeaning p.1 p.2),
                     decStatus := some .ok })

/-- The bytes emitted before `ENC.END` are no encoding: a decoder that is given them reports MalformedInput (70_reset_and_hazards.md R155). -/
def Obligations.UnfinishedEncodingIsRejected : Prop :=
  ∀ (p : List Byte) (s t : State), p ≠ [] → s.enc = ⟨.idle, 0, 0⟩ → s.encOut = [] →
    runEvents (encBytes p) s = .next t →
    rleDecode t.encOut = .malformedInput ∧ t.encOut ++ [t.enc.len] = rleEncode p

/-- A host that follows the rules of use (70_reset_and_hazards.md R153, R155, R159; their reading is log 15) leaves the ENC unit in its
reset state, and the DEC unit in its reset state or, after a failed run, in ERR (R151). -/
def Obligations.DutifulHostEndsInResetStates : Prop :=
  ∀ es : List Event, hostFollowsRules es = true →
    ∃ t, runEvents es State.reset = .next t ∧ t.enc = ⟨.idle, 0, 0⟩ ∧ (t.dec = ⟨.val, 0⟩ ∨ t.dec.st = .err)

/-- A pair item does what its two bytes do one after the other (30_encoding.md R62; log 1). -/
def Obligations.PairIsItsTwoBytes : Prop :=
  ∀ (v c : Byte) (s : State),
    runEvents [presents (.pair v c)] s = runEvents (lineEvents (.decPair v c)) s

/-! ### Laws of the codec -/

/-- 42_codec_laws.md R110: the round trip, of the functions and of the machine, with the status of every step of both streams. -/
def Obligations.RoundTrip : Prop :=
  (∀ b : List Byte, (rleEncode b).length % 2 = 0 ∧ rleDecode (rleEncode b) = .bytes b) ∧
  (∀ (b : List Byte) (s : State), s.enc = ⟨.idle, 0, 0⟩ → s.dec = ⟨.val, 0⟩ →
    ∃ t e, runEvents (encStream b) s = .next t ∧ t.encOut = s.encOut ++ e ∧ t.encStatus = some .ok ∧
      (∀ k, 1 ≤ k → k ≤ b.length + 1 →
        ∃ u, runEvents ((encStream b).take k) s = .next u ∧ u.encStatus = some .ok) ∧
      runEvents (decStream e) t =
        .next { t with dec := ⟨.val, 0⟩, decOut := t.decOut ++ b, decStatus := some .ok } ∧
      (∀ k, 1 ≤ k → k ≤ e.length + 1 →
        ∃ u, runEvents ((decStream e).take k) t = .next u ∧ u.decStatus = some .ok))

/-- 42_codec_laws.md R111 (with its machine form), R113, R114, R119, and the order-sensitive contract R120 asks for. -/
def Obligations.SourceExamples : Prop :=
  (rleEncode [] = [] ∧ rleDecode [] = .bytes []) ∧
  (∀ s : State, s.enc = ⟨.idle, 0, 0⟩ → exec .encEnd s = .next { s with encStatus := some .ok }) ∧
  (∀ s : State, s.dec = ⟨.val, 0⟩ → exec .decEnd s = .next { s with decStatus := some .ok }) ∧
  (∀ v : Byte, rleEncode [v] = [v, 1] ∧ rleDecode [v, 1] = .bytes [v]) ∧
  rleEncode [1, 1, 1, 2, 2, 3] = [1, 3, 2, 2, 3, 1] ∧ rleDecode [1, 3, 2, 2, 3, 1] = .bytes [1, 1, 1, 2, 2, 3] ∧
  rleEncode [3, 3, 3] = [3, 3] ∧ rleDecode [3, 3] = .bytes [3, 3, 3] ∧
  rleDecode [7, 2] = .bytes [7, 7]

/-- 42_codec_laws.md R112: 255 equal bytes give one pair, 256 give two, the full pair first. -/
def Obligations.RunCap : Prop :=
  ∀ v : Byte, rleEncode (List.replicate 255 v) = [v, 255] ∧ rleEncode (List.replicate 256 v) = [v, 255, v, 1]

/-- 42_codec_laws.md R115: `decode` raises exactly on odd length. -/
def Obligations.MalformedIffOdd : Prop :=
  (∀ v : Byte, rleDecode [v] = .malformedInput) ∧
  (∀ e : List Byte, rleDecode e = .malformedInput ↔ e.length % 2 = 1)

/-- 40_encoder.md R73: each maximal run of length `L` becomes `ceil(L/255)` pairs, the full ones first and then the remainder. The runs are
maximal: they spell the input, none is empty, and neighbours differ in value. -/
def Obligations.EncodeIsRunByRun : Prop :=
  (∀ input : List Byte,
    rleEncode input = bytesOfPairs ((maximalRuns input).flatMap fun r => runPairs r.1 r.2) ∧
    (maximalRuns input).flatMap (fun r => rep r.2 r.1) = input ∧
    (∀ r ∈ maximalRuns input, 1 ≤ r.2) ∧
    (maximalRuns input).IsChain (fun r q => r.1 ≠ q.1)) ∧
  (∀ (v : Byte) (n : Nat), 1 ≤ n →
    (runPairs v n).length = (n + 254) / 255 ∧
    runPairs v n = List.replicate (n / 255) (v, 255) ++ (if n % 255 = 0 then [] else [(v, BitVec.ofNat 8 (n % 255))]))

/-- 40_encoder.md R80: the shape of the encoder's output. -/
def Obligations.EncodeShape : Prop :=
  ∀ input : List Byte,
    (rleEncode input).length % 2 = 0 ∧
    (∀ p ∈ pairsOf (rleEncode input), 1 ≤ p.2.toNat ∧ p.2.toNat ≤ 255) ∧
    countSum (rleEncode input) = input.length ∧
    (pairsOf (rleEncode input)).length = ((maximalRuns input).map fun r => (r.2 + 254) / 255).sum ∧
    (pairsOf (rleEncode input)).IsChain (fun p q => p.1 = q.1 → p.2 = 255)

/-- 42_codec_laws.md R116: `Canonical` is the range of `encode`, on which `decode` is its inverse; off it, on decodable sequences, the
re-encoding is canonical and differs; `encode` is injective and `decode` on decodable sequences is not. -/
def Obligations.CanonicalIsEncoded : Prop :=
  (∀ e : List Byte, canonical e = true ↔ ∃ b, rleEncode b = e) ∧
  (∀ e b : List Byte, canonical e = true → rleDecode e = .bytes b → rleEncode b = e) ∧
  (∀ e b : List Byte, canonical e = false → rleDecode e = .bytes b →
    canonical (rleEncode b) = true ∧ rleDecode (rleEncode b) = .bytes b ∧ rleEncode b ≠ e) ∧
  (∀ b b' : List Byte, rleEncode b = rleEncode b' → b = b') ∧
  (∃ e e' : List Byte, e ≠ e' ∧ decodable e = true ∧ decodable e' = true ∧ rleDecode e = rleDecode e') ∧
  (rleDecode [1, 1, 1, 1] = .bytes [1, 1] ∧ rleEncode [1, 1] = [1, 2] ∧
    rleDecode [7, 0, 8, 2] = .bytes [8, 8] ∧ rleEncode [8, 8] = [8, 2])

/-- 42_codec_laws.md R117: lengths. -/
def Obligations.CodecLengths : Prop :=
  (∀ e out : List Byte, rleDecode e = .bytes out → out.length = countSum e) ∧
  (∀ b : List Byte, (rleEncode b).length = 2 * ((maximalRuns b).map fun r => (r.2 + 254) / 255).sum) ∧
  (∀ b : List Byte, countSum (rleEncode b) = b.length)

/-- 42_codec_laws.md R118: `decode` distributes over concatenation after an even length; `encode` does exactly in the listed cases, the
whole is never longer than the parts, and the joined parts still decode to the whole. -/
def Obligations.Concatenation : Prop :=
  (∀ e₁ e₂ : List Byte, e₁.length % 2 = 0 → rleDecode (e₁ ++ e₂) = joinResults (rleDecode e₁) (rleDecode e₂)) ∧
  (∀ b₁ b₂ : List Byte,
    (rleEncode (b₁ ++ b₂) = rleEncode b₁ ++ rleEncode b₂ ↔
      b₁ = [] ∨ b₂ = [] ∨ b₁.getLast? ≠ b₂.head? ∨ (rleEncode b₁).getLast? = some 255) ∧
    (rleEncode (b₁ ++ b₂)).length ≤ (rleEncode b₁ ++ rleEncode b₂).length ∧
    rleDecode (rleEncode b₁ ++ rleEncode b₂) = .bytes (b₁ ++ b₂)) ∧
  (rleEncode ([1] ++ [1]) = [1, 2] ∧ rleEncode [1] ++ rleEncode [1] = [1, 1, 1, 1]) ∧
  (rleEncode (List.replicate 254 1 ++ [1, 1]) = [1, 255, 1, 1] ∧
    rleEncode (List.replicate 254 1) ++ rleEncode [1, 1] = [1, 254, 1, 2])

/-- 20_memory.md R36: output size bounds, with when each is reached. -/
def Obligations.OutputSizeBounds : Prop :=
  (∀ input : List Byte,
    (rleEncode input).length ≤ 2 * input.length ∧
    ((rleEncode input).length = 2 * input.length ↔ input.IsChain (· ≠ ·)) ∧
    2 * ((input.length + 254) / 255) ≤ (rleEncode input).length ∧
    ((∃ v, ∀ b ∈ input, b = v) → (rleEncode input).length = 2 * ((input.length + 254) / 255))) ∧
  (∀ e out : List Byte, rleDecode e = .bytes out →
    out.length ≤ 255 * e.length / 2 ∧
    ((∀ p ∈ pairsOf e, p.2 = 255) ↔ out.length = 255 * e.length / 2) ∧
    ((∀ p ∈ pairsOf e, p.2 = 0) ↔ out.length = 0))

/-- `decode` of pairs laid out value first is each pair's `rep(count, value)` in order (30_encoding.md R56, R57, 41_decoder.md R94): the pair
at `2k` and `2k + 1`, a count taken as it stands, nothing merged or rejected (R100). -/
def Obligations.DecodeExpandsEachPair : Prop :=
  ∀ ps : List (Byte × Byte),
    rleDecode (bytesOfPairs ps) = .bytes (ps.flatMap fun p => List.replicate p.2.toNat p.1) ∧
    pairsOf (bytesOfPairs ps) = ps ∧
    (∀ (k : Nat) (p : Byte × Byte), ps[k]? = some p →
      (bytesOfPairs ps)[2 * k]? = some p.1 ∧ (bytesOfPairs ps)[2 * k + 1]? = some p.2)

/-- 41_decoder.md R93: a pair with count 0 decodes to nothing, wherever it stands, and the unit handles it as any other. -/
def Obligations.ZeroCountExpandsToNothing : Prop :=
  (∀ (v : Byte) (e₁ e₂ : List Byte), e₁.length % 2 = 0 → rleDecode (e₁ ++ v :: 0 :: e₂) = rleDecode (e₁ ++ e₂)) ∧
  (∀ s : State, s.dec.st = .cnt →
    exec (.decByte 0) s = .next { s with dec := ⟨.val, s.dec.val⟩, decStatus := some .ok })

/-- 41_decoder.md R100: `decode` is not injective. -/
def Obligations.DecodeIsNotInjective : Prop :=
  rleDecode [1, 1, 1, 1] = .bytes [1, 1] ∧ rleDecode [1, 2] = .bytes [1, 1] ∧
  rleDecode [7, 0] = .bytes [] ∧ rleDecode [] = .bytes []

/-! ### Notation -/

/-- Every instruction's line, written with hexadecimal bytes, reads back as that line (30_encoding.md R61, R62). -/
def Obligations.NotationReadsBack : Prop :=
  ∀ i : Instr, readLine (writeInstr i) = .line (lineOf i)

/-- 30_encoding.md R62: the expansions of the pseudo-commands. -/
def Obligations.PseudoCommandsExpand : Prop :=
  (∀ bs : List Byte, lineEvents (.encStream bs) = programEvents (bs.map TraceLine.encByte ++ [.encEnd]) ∧
    lineEvents (.decStream bs) = programEvents (bs.map TraceLine.decByte ++ [.decEnd])) ∧
  (∀ v c : Byte, lineEvents (.decPair v c) = programEvents [.decByte v, .decByte c]) ∧
  (∀ (v : Byte) (n : Nat), lineEvents (.encRun v n) = programEvents (List.replicate n (.encByte v))) ∧
  (∀ v : Byte, (TraceLine.encRun v 0).wf = false) ∧
  (∀ (v c : Byte) (d : DecUnit), lineValidIn d (.decPair v c) = true ↔ d.st = .val)
end

