-- ==== Sys2Proof/Laws/Codec.lean ====
section
/-! SUPPORT. The small laws of the function layer: decoding taken apart pair by pair, pairs and their bytes, the maximal runs of data
with one more run before them, and the pairs of one run. -/

namespace Sys2Proof.Machine

@[simp] theorem joinResults_nil (a : CodecResult) : joinResults (.bytes []) a = a := by
  cases a <;> simp [joinResults]

theorem joinResults_assoc (a b c : CodecResult) :
    joinResults (joinResults a b) c = joinResults a (joinResults b c) := by
  cases a <;> cases b <;> cases c <;> simp [joinResults]

/-- Induction over encoded data, two bytes at a time. -/
theorem pair_induction {P : List Byte → Prop} (nil : P []) (half : ∀ v, P [v])
    (pair : ∀ v c e, P e → P (v :: c :: e)) (e : List Byte) : P e := by
  have bounded : ∀ n, ∀ e : List Byte, e.length ≤ n → P e := by
    intro n
    induction n with
    | zero =>
      intro e h
      rw [List.length_eq_zero_iff.mp (Nat.le_zero.mp h)]
      exact nil
    | succ n ih =>
      intro e h
      match e, h with
      | [], _ => exact nil
      | [v], _ => exact half v
      | v :: c :: rest, h => exact pair v c rest (ih rest (by simp only [List.length_cons] at h; omega))
  exact bounded e.length e (Nat.le_refl _)

/-- The output so far stands before what the rest decodes to. -/
theorem rleDecodeFrom_eq (e : List Byte) (out : List Byte) : rleDecodeFrom out e = joinResults (.bytes out) (rleDecode e) := by
  induction e using pair_induction generalizing out with
  | nil => simp [rleDecodeFrom, rleDecode, joinResults]
  | half v => rfl
  | pair v c e ih =>
    simp only [rleDecodeFrom, rleDecode]
    rw [ih, ih ([] ++ _)]
    cases rleDecode e <;> simp [joinResults]

/-- A pair decodes to its copies, before what the rest decodes to. -/
theorem rleDecode_cons (v c : Byte) (e : List Byte) :
    rleDecode (v :: c :: e) = joinResults (.bytes (pairMeaning v c)) (rleDecode e) :=
  rleDecodeFrom_eq e _

@[simp] theorem bytesOfPairs_nil : bytesOfPairs [] = [] := rfl

@[simp] theorem bytesOfPairs_cons (p : Byte × Byte) (ps : List (Byte × Byte)) :
    bytesOfPairs (p :: ps) = p.1 :: p.2 :: bytesOfPairs ps := rfl

@[simp] theorem bytesOfPairs_append (ps qs : List (Byte × Byte)) :
    bytesOfPairs (ps ++ qs) = bytesOfPairs ps ++ bytesOfPairs qs := by
  simp [bytesOfPairs]

@[simp] theorem length_bytesOfPairs (ps : List (Byte × Byte)) : (bytesOfPairs ps).length = 2 * ps.length := by
  induction ps with
  | nil => rfl
  | cons p ps ih =>
    simp only [bytesOfPairs_cons, List.length_cons, ih]
    omega

/-- Decodable data is the bytes of its pairs. -/
theorem bytesOfPairs_pairsOf (e : List Byte) (h : e.length % 2 = 0) : bytesOfPairs (pairsOf e) = e := by
  induction e using pair_induction with
  | nil => rfl
  | half v => simp at h
  | pair v c e ih =>
    simp only [List.length_cons] at h
    simp [pairsOf, ih (by omega)]

/-- The maximal runs of nonempty data begin with its first byte, are nonempty, and neighbours differ. -/
theorem maximalRuns_cons (b : Byte) (p : List Byte) :
    ∃ m rs, maximalRuns (b :: p) = (b, m + 1) :: rs ∧ (∀ r ∈ (b, m + 1) :: rs, 1 ≤ r.2) ∧
      ((b, m + 1) :: rs).IsChain (fun r q => r.1 ≠ q.1) := by
  induction p generalizing b with
  | nil => exact ⟨0, [], rfl, by simp, by simp⟩
  | cons c p ih =>
    obtain ⟨m, rs, hr, hpos, hch⟩ := ih c
    rw [maximalRuns, hr, consRun]
    by_cases hb : b = c
    · subst hb
      rw [if_pos rfl]
      refine ⟨m + 1, rs, rfl, ?_, ?_⟩
      · intro r hr
        rcases List.mem_cons.mp hr with rfl | hr
        · simp
        · exact hpos r (List.mem_cons_of_mem _ hr)
      · cases rs with
        | nil => simp
        | cons q rs =>
          rw [List.isChain_cons_cons] at hch ⊢
          exact hch
    · rw [if_neg hb]
      refine ⟨0, _, rfl, ?_, List.isChain_cons_cons.mpr ⟨hb, hch⟩⟩
      intro r hr
      rcases List.mem_cons.mp hr with rfl | hr
      · simp
      · exact hpos r hr

/-- More copies of the first run's value before the data lengthen that run. -/
theorem maximalRuns_replicate_same {v : Byte} {p : List Byte} {m : Nat} {rs : List (Byte × Nat)}
    (h : maximalRuns p = (v, m) :: rs) (n : Nat) : maximalRuns (List.replicate n v ++ p) = (v, m + n) :: rs := by
  induction n with
  | zero => simpa using h
  | succ n ih =>
    rw [List.replicate_succ, List.cons_append, maximalRuns, ih, consRun, if_pos rfl]
    rfl

/-- Copies of another value before the data are a run of their own. -/
theorem maximalRuns_replicate_other {v : Byte} {p : List Byte} (h : ∀ m rs, maximalRuns p ≠ (v, m) :: rs) (n : Nat) :
    maximalRuns (List.replicate (n + 1) v ++ p) = (v, n + 1) :: maximalRuns p := by
  have one : maximalRuns (v :: p) = (v, 1) :: maximalRuns p := by
    rw [maximalRuns]
    rcases hr : maximalRuns p with _ | ⟨⟨w, m⟩, rs⟩
    · rfl
    · rw [consRun, if_neg]
      rintro rfl
      exact h m rs hr
  rw [List.replicate_succ', List.append_assoc]
  simpa [Nat.add_comm] using maximalRuns_replicate_same one n

/-- A run of at most 255 is one pair. -/
theorem runPairs_of_le (v : Byte) {n : Nat} (h1 : 1 ≤ n) (h2 : n ≤ 255) : runPairs v n = [(v, countByte n)] := by
  change List.replicate (n / 255) (v, countByte 255) ++ (if n % 255 = 0 then [] else [(v, countByte (n % 255))]) = _
  by_cases h : n = 255
  · subst h
    rfl
  · rw [Nat.div_eq_of_lt (by omega), Nat.mod_eq_of_lt (by omega), if_neg (by omega)]
    rfl

/-- A run 255 longer has one more full pair, first. -/
theorem runPairs_add (v : Byte) (n : Nat) : runPairs v (n + 255) = (v, countByte 255) :: runPairs v n := by
  change List.replicate ((n + 255) / 255) (v, countByte 255) ++
    (if (n + 255) % 255 = 0 then [] else [(v, countByte ((n + 255) % 255))]) = _
  rw [Nat.add_div_right _ (by omega), Nat.add_mod_right, List.replicate_succ]
  rfl

/-- A count of at most 255 is kept by its byte. -/
theorem toNat_countByte {n : Nat} (h : n ≤ 255) : (countByte n).toNat = n := by
  simp only [countByte, BitVec.toNat_ofNat]
  omega

end Sys2Proof.Machine
end

