-- ==== Sys2Proof/Laws/State.lean ====
section
/-! SUPPORT. One lemma per field per operation: what each shared operation of the machine writes, and what it leaves. -/

namespace Sys2Proof.Machine

@[simp] theorem emitEnc_enc (bs : List Byte) (s : State) : (emitEnc bs s).enc = s.enc := rfl
@[simp] theorem emitEnc_dec (bs : List Byte) (s : State) : (emitEnc bs s).dec = s.dec := rfl
@[simp] theorem emitEnc_encOut (bs : List Byte) (s : State) : (emitEnc bs s).encOut = s.encOut ++ bs := rfl
@[simp] theorem emitEnc_decOut (bs : List Byte) (s : State) : (emitEnc bs s).decOut = s.decOut := rfl
@[simp] theorem emitEnc_encStatus (bs : List Byte) (s : State) : (emitEnc bs s).encStatus = s.encStatus := rfl
@[simp] theorem emitEnc_decStatus (bs : List Byte) (s : State) : (emitEnc bs s).decStatus = s.decStatus := rfl
@[simp] theorem emitEnc_pending (bs : List Byte) (s : State) : (emitEnc bs s).pending = s.pending := rfl

@[simp] theorem emitDec_enc (bs : List Byte) (s : State) : (emitDec bs s).enc = s.enc := rfl
@[simp] theorem emitDec_dec (bs : List Byte) (s : State) : (emitDec bs s).dec = s.dec := rfl
@[simp] theorem emitDec_encOut (bs : List Byte) (s : State) : (emitDec bs s).encOut = s.encOut := rfl
@[simp] theorem emitDec_decOut (bs : List Byte) (s : State) : (emitDec bs s).decOut = s.decOut ++ bs := rfl
@[simp] theorem emitDec_encStatus (bs : List Byte) (s : State) : (emitDec bs s).encStatus = s.encStatus := rfl
@[simp] theorem emitDec_decStatus (bs : List Byte) (s : State) : (emitDec bs s).decStatus = s.decStatus := rfl
@[simp] theorem emitDec_pending (bs : List Byte) (s : State) : (emitDec bs s).pending = s.pending := rfl

@[simp] theorem setEnc_enc (u : EncUnit) (s : State) : (setEnc u s).enc = u := rfl
@[simp] theorem setEnc_dec (u : EncUnit) (s : State) : (setEnc u s).dec = s.dec := rfl
@[simp] theorem setEnc_encOut (u : EncUnit) (s : State) : (setEnc u s).encOut = s.encOut := rfl
@[simp] theorem setEnc_decOut (u : EncUnit) (s : State) : (setEnc u s).decOut = s.decOut := rfl
@[simp] theorem setEnc_encStatus (u : EncUnit) (s : State) : (setEnc u s).encStatus = s.encStatus := rfl
@[simp] theorem setEnc_decStatus (u : EncUnit) (s : State) : (setEnc u s).decStatus = s.decStatus := rfl
@[simp] theorem setEnc_pending (u : EncUnit) (s : State) : (setEnc u s).pending = s.pending := rfl

@[simp] theorem setDec_enc (u : DecUnit) (s : State) : (setDec u s).enc = s.enc := rfl
@[simp] theorem setDec_dec (u : DecUnit) (s : State) : (setDec u s).dec = u := rfl
@[simp] theorem setDec_encOut (u : DecUnit) (s : State) : (setDec u s).encOut = s.encOut := rfl
@[simp] theorem setDec_decOut (u : DecUnit) (s : State) : (setDec u s).decOut = s.decOut := rfl
@[simp] theorem setDec_encStatus (u : DecUnit) (s : State) : (setDec u s).encStatus = s.encStatus := rfl
@[simp] theorem setDec_decStatus (u : DecUnit) (s : State) : (setDec u s).decStatus = s.decStatus := rfl
@[simp] theorem setDec_pending (u : DecUnit) (s : State) : (setDec u s).pending = s.pending := rfl

@[simp] theorem reportEnc_enc (s : State) : (reportEnc s).enc = s.enc := rfl
@[simp] theorem reportEnc_dec (s : State) : (reportEnc s).dec = s.dec := rfl
@[simp] theorem reportEnc_encOut (s : State) : (reportEnc s).encOut = s.encOut := rfl
@[simp] theorem reportEnc_decOut (s : State) : (reportEnc s).decOut = s.decOut := rfl
@[simp] theorem reportEnc_encStatus (s : State) : (reportEnc s).encStatus = some .ok := rfl
@[simp] theorem reportEnc_decStatus (s : State) : (reportEnc s).decStatus = s.decStatus := rfl
@[simp] theorem reportEnc_pending (s : State) : (reportEnc s).pending = s.pending := rfl

@[simp] theorem reportDec_enc (s : State) : (reportDec s).enc = s.enc := rfl
@[simp] theorem reportDec_dec (s : State) : (reportDec s).dec = s.dec := rfl
@[simp] theorem reportDec_encOut (s : State) : (reportDec s).encOut = s.encOut := rfl
@[simp] theorem reportDec_decOut (s : State) : (reportDec s).decOut = s.decOut := rfl
@[simp] theorem reportDec_encStatus (s : State) : (reportDec s).encStatus = s.encStatus := rfl
@[simp] theorem reportDec_decStatus (s : State) : (reportDec s).decStatus = some (decStatusOf s.dec) := rfl
@[simp] theorem reportDec_pending (s : State) : (reportDec s).pending = s.pending := rfl

@[simp] theorem raiseMalformedInput_enc (s : State) : (raiseMalformedInput s).enc = s.enc := rfl
@[simp] theorem raiseMalformedInput_dec (s : State) : (raiseMalformedInput s).dec = ⟨.err, s.dec.val⟩ := rfl
@[simp] theorem raiseMalformedInput_encOut (s : State) : (raiseMalformedInput s).encOut = s.encOut := rfl
@[simp] theorem raiseMalformedInput_decOut (s : State) : (raiseMalformedInput s).decOut = s.decOut := rfl
@[simp] theorem raiseMalformedInput_encStatus (s : State) : (raiseMalformedInput s).encStatus = s.encStatus := rfl
@[simp] theorem raiseMalformedInput_decStatus (s : State) : (raiseMalformedInput s).decStatus = some .malformedInput := rfl
@[simp] theorem raiseMalformedInput_pending (s : State) : (raiseMalformedInput s).pending = s.pending := rfl

@[simp] theorem resetCore_enc (s : State) : (resetCore s).enc = encReset := rfl
@[simp] theorem resetCore_dec (s : State) : (resetCore s).dec = decReset := rfl
@[simp] theorem resetCore_encOut (s : State) : (resetCore s).encOut = s.encOut := rfl
@[simp] theorem resetCore_decOut (s : State) : (resetCore s).decOut = s.decOut := rfl
@[simp] theorem resetCore_encStatus (s : State) : (resetCore s).encStatus = none := rfl
@[simp] theorem resetCore_decStatus (s : State) : (resetCore s).decStatus = none := rfl
@[simp] theorem resetCore_pending (s : State) : (resetCore s).pending = s.pending := rfl

@[simp] theorem present_enc (es : List Event) (s : State) : (present es s).enc = s.enc := rfl
@[simp] theorem present_dec (es : List Event) (s : State) : (present es s).dec = s.dec := rfl
@[simp] theorem present_encOut (es : List Event) (s : State) : (present es s).encOut = s.encOut := rfl
@[simp] theorem present_decOut (es : List Event) (s : State) : (present es s).decOut = s.decOut := rfl
@[simp] theorem present_encStatus (es : List Event) (s : State) : (present es s).encStatus = s.encStatus := rfl
@[simp] theorem present_decStatus (es : List Event) (s : State) : (present es s).decStatus = s.decStatus := rfl
@[simp] theorem present_pending (es : List Event) (s : State) : (present es s).pending = es ++ s.pending := rfl

@[simp] theorem takeOutputs_enc (s : State) : (takeOutputs s).enc = s.enc := rfl
@[simp] theorem takeOutputs_dec (s : State) : (takeOutputs s).dec = s.dec := rfl
@[simp] theorem takeOutputs_encOut (s : State) : (takeOutputs s).encOut = [] := rfl
@[simp] theorem takeOutputs_decOut (s : State) : (takeOutputs s).decOut = [] := rfl
@[simp] theorem takeOutputs_encStatus (s : State) : (takeOutputs s).encStatus = s.encStatus := rfl
@[simp] theorem takeOutputs_decStatus (s : State) : (takeOutputs s).decStatus = s.decStatus := rfl
@[simp] theorem takeOutputs_pending (s : State) : (takeOutputs s).pending = s.pending := rfl

end Sys2Proof.Machine
end

