-- ==== Sys2Proof/Laws/Ops.lean ====
section
/-! SUPPORT. What the shared operations answer, and how they pass over events that wait behind the current one. -/

namespace Sys2Proof.Machine

@[simp] theorem andThen_next (s : State) (f : State → Result) : andThen (.next s) f = f s := rfl
@[simp] theorem andThen_refused (r : Refusal) (f : State → Result) : andThen (.refused r) f = .refused r := rfl

theorem andThen_assoc (r : Result) (f g : State → Result) :
    andThen (andThen r f) g = andThen r fun s => andThen (f s) g := by
  cases r <;> rfl

/-- Two steps that end in `t` pass through a state between them. -/
theorem andThen_eq_next {r : Result} {f : State → Result} {t : State} :
    andThen r f = .next t ↔ ∃ s, r = .next s ∧ f s = .next t := by
  cases r <;> simp [andThen]

/-- An ENC command answers a next state exactly on a legal register pattern, and then the one its effect gives. -/
theorem onLegalEnc_eq_next {s t : State} {k : State → State} :
    onLegalEnc s k = .next t ↔ encLegal s.enc = true ∧ k s = t := by
  unfold onLegalEnc
  split <;> simp_all

theorem onLegalEnc_of_legal {s : State} (k : State → State) (h : encLegal s.enc = true) :
    onLegalEnc s k = .next (k s) := by
  simp [onLegalEnc, h]

theorem onLegalEnc_of_not_legal {s : State} (k : State → State) (h : encLegal s.enc = false) :
    onLegalEnc s k = .refused .encPatternWithoutMeaning := by
  simp [onLegalEnc, h]

/-- An ENC command does not look at the waiting events. -/
theorem onLegalEnc_present (es : List Event) (s : State) (k : State → State) (h : k (present es s) = present es (k s)) :
    onLegalEnc (present es s) k = andThen (onLegalEnc s k) fun t => .next (present es t) := by
  unfold onLegalEnc
  rw [present_enc, h]
  split <;> rfl

@[simp] theorem encLegal_encReset : encLegal encReset = true := rfl
@[simp] theorem encLegal_startRun (b : Byte) : encLegal (startRun b) = true := rfl

/-- A legal pattern in IDLE is the reset state of the unit. -/
theorem encLegal_idle {u : EncUnit} (h : encLegal u = true) (hu : u.st = .idle) : u = encReset := by
  cases u
  simp_all [encLegal, encReset]

/-- A legal pattern in RUN has a length of at least 1. -/
theorem encLegal_run {u : EncUnit} (h : encLegal u = true) (hu : u.st = .run) : u.len ≠ 0 := by
  cases u
  simp_all [encLegal]

/-- The run is continued exactly by an equal byte below the cap. -/
theorem runContinues_iff (u : EncUnit) (b : Byte) : runContinues u b = true ↔ b = u.val ∧ u.len.toNat < 255 := by
  rw [runContinues, Bool.and_eq_true, beq_iff_eq, decide_eq_true_iff]
  rfl

/-- The increment of a continued run does not wrap (40_encoder.md R74). -/
theorem continueRun_len {u : EncUnit} {b : Byte} (h : runContinues u b = true) :
    (continueRun u).len.toNat = u.len.toNat + 1 := by
  have h' := (runContinues_iff u b).mp h
  simp [continueRun, BitVec.toNat_add]
  omega

/-- `ENC.BYTE` ends in RUN with a length of at least 1, from any pattern. -/
theorem encLegal_encByteRegs (u : EncUnit) (b : Byte) : encLegal (encByteRegs u b) = true := by
  unfold encByteRegs
  split
  · rfl
  · split
    · next hr hc =>
      have hl := continueRun_len hc
      simp only [encLegal, continueRun, hr] at hl ⊢
      simp
      intro h0
      simp [h0] at hl
    · rfl

/-- What `DEC.BYTE` appends: the copies of the held value in CNT, nothing in the other states (41_decoder.md R91). -/
theorem decByteStep_decOut (b : Byte) (s : State) :
    (decByteStep b s).decOut = s.decOut ++ if s.dec.st = .cnt then pairMeaning s.dec.val b else [] := by
  unfold decByteStep
  split <;> simp_all

/-- `DEC.BYTE` and its status. -/
theorem decByteStep_decStatus (b : Byte) (s : State) :
    (decByteStep b s).decStatus = some (decStatusOf (decByteStep b s).dec) := by
  unfold decByteStep
  split <;> simp

/-- `DEC.BYTE` never enters ERR, and never leaves it (41_decoder.md R96). -/
theorem decByteStep_err (b : Byte) (s : State) : (decByteStep b s).dec.st = .err ↔ s.dec.st = .err := by
  unfold decByteStep
  split <;> simp_all

/-- `DEC.BYTE` leaves the ENC unit's side and the waiting events. -/
theorem decByteStep_frame (b : Byte) (s : State) :
    (decByteStep b s).enc = s.enc ∧ (decByteStep b s).encOut = s.encOut ∧
      (decByteStep b s).encStatus = s.encStatus ∧ (decByteStep b s).pending = s.pending := by
  unfold decByteStep
  split <;> simp

@[simp] theorem decByteStep_present (b : Byte) (es : List Event) (s : State) :
    decByteStep b (present es s) = present es (decByteStep b s) := by
  unfold decByteStep
  simp only [present_dec]
  split <;> rfl

@[simp] theorem present_nil (s : State) : present [] s = s := rfl

theorem present_present (es fs : List Event) (s : State) : present es (present fs s) = present (es ++ fs) s := by
  simp [present]

end Sys2Proof.Machine
end

