-- ==== Sys2Proof/Laws/PerInstr.lean ====
section
/-! SUPPORT. Laws said once per constructor of `Instr`: what holds of each instruction as syntax. -/

namespace Sys2Proof.Laws.TableRow

/-- The instruction's canonical word meets the mask and match of the row with its mnemonic, and of no other row (30_encoding.md R52);
a pair has no row there: its mask and match are both zero (R56). -/
def Statement (i : Instr) : Prop :=
  match encode i with
  | .command w => (commandRows.filter fun r => rowMatches r w).map Row.mnemonic = [mnemonicOf i]
  | .pair _ _ => mnemonicOf i = "PAIR"

theorem encByte (b : Byte) : Statement (.encByte b) := by
  change (commandRows.filter fun r => rowMatches r (0x000 + dataField b)).map Row.mnemonic = ["ENC.BYTE"]
  revert b
  decide

theorem encEnd : Statement .encEnd := by
  change (commandRows.filter fun r => rowMatches r 0x100).map Row.mnemonic = ["ENC.END"]
  decide

theorem decByte (b : Byte) : Statement (.decByte b) := by
  change (commandRows.filter fun r => rowMatches r (0x200 + dataField b)).map Row.mnemonic = ["DEC.BYTE"]
  revert b
  decide

theorem decEnd : Statement .decEnd := by
  change (commandRows.filter fun r => rowMatches r 0x300).map Row.mnemonic = ["DEC.END"]
  decide

theorem pair (value count : Byte) : Statement (.pair value count) := rfl

end Sys2Proof.Laws.TableRow
end

