-- ==== Sys2Proof/Laws/Step.lean ====
section
/-! SUPPORT. What a step and a run of events can do: each instruction's answer once, the three cases of a step, and runs taken apart
into their events. -/

namespace Sys2Proof.Machine

theorem exec_encByte (b : Byte) (s : State) : exec (.encByte b) s =
    onLegalEnc s fun s => reportEnc (setEnc (encByteRegs s.enc b) (emitEnc (encByteEmits s.enc b) s)) := rfl

theorem exec_encEnd (s : State) : exec .encEnd s =
    onLegalEnc s fun s => reportEnc (setEnc encReset (emitEnc (encEndEmits s.enc) s)) := rfl

@[simp] theorem exec_decByte (b : Byte) (s : State) : exec (.decByte b) s = .next (decByteStep b s) := rfl

@[simp] theorem exec_pair (v c : Byte) (s : State) :
    exec (.pair v c) s = .next (decByteStep c (decByteStep v s)) := rfl

/-- Everything an instruction can answer with a next state. -/
theorem exec_eq_next {i : Instr} {s t : State} (h : exec i s = .next t) :
    (∃ b, i = .encByte b ∧ encLegal s.enc = true ∧
      t = reportEnc (setEnc (encByteRegs s.enc b) (emitEnc (encByteEmits s.enc b) s))) ∨
    (i = .encEnd ∧ encLegal s.enc = true ∧ t = reportEnc (setEnc encReset (emitEnc (encEndEmits s.enc) s))) ∨
    (∃ b, i = .decByte b ∧ t = decByteStep b s) ∨
    (i = .decEnd ∧ s.dec.st = .val ∧ t = reportDec (setDec decReset s)) ∨
    (i = .decEnd ∧ s.dec.st = .cnt ∧ t = raiseMalformedInput s) ∨
    (i = .decEnd ∧ s.dec.st = .err ∧ t = reportDec s) ∨
    (∃ v c, i = .pair v c ∧ t = decByteStep c (decByteStep v s)) := by
  cases i with
  | encByte b =>
    obtain ⟨hl, rfl⟩ := onLegalEnc_eq_next.mp ((exec_encByte b s).symm.trans h)
    exact .inl ⟨b, rfl, hl, rfl⟩
  | encEnd =>
    obtain ⟨hl, rfl⟩ := onLegalEnc_eq_next.mp ((exec_encEnd s).symm.trans h)
    exact .inr (.inl ⟨rfl, hl, rfl⟩)
  | decByte b =>
    simp only [exec, execDecByte, Host.Outcome.next.injEq] at h
    exact .inr (.inr (.inl ⟨b, rfl, h.symm⟩))
  | decEnd =>
    simp only [exec, execDecEnd] at h
    cases hd : s.dec.st <;> simp_all
  | pair v c =>
    simp only [exec, execPair, Host.Outcome.next.injEq] at h
    exact .inr (.inr (.inr (.inr (.inr (.inr ⟨v, c, rfl, h.symm⟩)))))

/-- An instruction does not look at the waiting events. -/
theorem exec_present (i : Instr) (es : List Event) (s : State) :
    exec i (present es s) = andThen (exec i s) fun t => .next (present es t) := by
  cases i with
  | encByte b =>
    rw [exec_encByte, exec_encByte]
    exact onLegalEnc_present _ _ _ rfl
  | encEnd =>
    rw [exec_encEnd, exec_encEnd]
    exact onLegalEnc_present _ _ _ rfl
  | decByte b => simp [exec, execDecByte]
  | decEnd =>
    simp only [exec, execDecEnd, present_dec]
    split <;> rfl
  | pair v c => simp [exec, execPair]

/-- An event's handling does not look at the events behind it. -/
theorem handle_present (e : Event) (es : List Event) (s : State) :
    handle e (present es s) = andThen (handle e s) fun t => .next (present es t) := by
  cases e with
  | reset d => rfl
  | present item => exact exec_present (decode item) es s

theorem step_of_nil {s : State} (h : s.pending = []) : step s = .next s := by
  simp [step, nextEvent, h]

theorem step_of_cons {s : State} {e : Event} {rest : List Event} (h : s.pending = e :: rest) :
    step s = handle e { s with pending := rest } := by
  simp [step, nextEvent, h]

/-- Everything a step can do. -/
theorem step_eq_next {s t : State} (h : step s = .next t) :
    (s.pending = [] ∧ t = s) ∨
    (∃ d rest, s.pending = .reset d :: rest ∧ t = resetCore { s with pending := rest }) ∨
    (∃ item rest, s.pending = .present item :: rest ∧ exec (decode item) { s with pending := rest } = .next t) := by
  cases hp : s.pending with
  | nil =>
    rw [step_of_nil hp] at h
    simp_all
  | cons e rest =>
    rw [step_of_cons hp] at h
    cases e with
    | reset d =>
      simp only [handle, Host.Outcome.next.injEq] at h
      exact .inr (.inl ⟨d, rest, rfl, h.symm⟩)
    | present item => exact .inr (.inr ⟨item, rest, rfl, h⟩)

@[simp] theorem runSteps_zero (s : State) : runSteps 0 s = .next s := rfl

theorem runSteps_succ (k : Nat) (s : State) : runSteps (k + 1) s = andThen (step s) (runSteps k) := rfl

/-- A run of the host's interface taken apart, for any machine. -/
theorem core_run_succ (M : Host.Core) (k : Nat) (s : M.State) : M.run (k + 1) s = andThen (M.step s) (M.run k) := by
  rw [Host.Core.run]
  cases M.step s <;> rfl

/-- The model's run is the host's. -/
theorem runSteps_eq_core_run (k : Nat) : runSteps k = Host.Core.run Sys2Proof.core k := by
  induction k with
  | zero => rfl
  | succ k ih =>
    funext s
    rw [runSteps_succ, ih]
    exact (core_run_succ Sys2Proof.core k s).symm

@[simp] theorem runEvents_nil (s : State) : runEvents [] s = .next s := rfl

/-- A run of events is the handling of the first and a run of the others. -/
theorem runEvents_cons (e : Event) (es : List Event) (s : State) :
    runEvents (e :: es) s = andThen (handle e s) (runEvents es) := by
  have hp : (present (e :: es) s).pending = e :: (es ++ s.pending) := rfl
  have hs : ({ present (e :: es) s with pending := es ++ s.pending } : State) = present es s := rfl
  unfold runEvents
  rw [List.length_cons, runSteps_succ, step_of_cons hp, hs, handle_present, andThen_assoc]
  rfl

theorem runEvents_append (es fs : List Event) (s : State) :
    runEvents (es ++ fs) s = andThen (runEvents es s) (runEvents fs) := by
  induction es generalizing s with
  | nil => rfl
  | cons e es ih =>
    rw [List.cons_append, runEvents_cons, runEvents_cons, andThen_assoc]
    congr 1
    funext t
    exact ih t

/-- An instruction presented by the host runs as itself. -/
theorem handle_presents (i : Instr) (s : State) (h : decode (encode i) = i) : handle (presents i) s = exec i s := by
  simp [presents, handle, h]

/-- The host's step on one event handles it on the machine with nothing waiting. -/
theorem stepOn_eq (e : Event) (s : State) : stepOn e s = handle e { s with pending := [] } :=
  step_of_cons rfl

end Sys2Proof.Machine
end

