-- ==== Sys2Proof/Tests/Slice0.lean ====
section
/-! SUPPORT. Small tests, their expected results taken from 95_test_vectors.md (the vector's name stands in the test's comment) or written out from the
encodings of 30_encoding.md, the smoke tests of WellFormed, and for every statement with hypotheses a witness that meets them together. -/

namespace Sys2Proof.Tests
open Sys2Proof Sys2Proof.Machine

/-- A small state: the reset state with the registers of the two units set. -/
def st (e : EncUnit) (d : DecUnit) : State := { State.reset with enc := e, dec := d }

/-- The outcome is this next state. -/
def answers (r : Result) (t : State) : Bool :=
  match r with
  | .next s => s == t
  | .fault _ => false
  | .refused _ => false

/-- The outcome is some next state. -/
def runs (r : Result) : Bool :=
  match r with
  | .next _ => true
  | .fault _ => false
  | .refused _ => false

/-! ### Well-formedness -/

theorem test_encRun_of_zero_is_ill_formed : (TraceLine.encRun 5 0).wf = false := by decide
theorem test_encRun_of_one_is_well_formed : (TraceLine.encRun 5 1).wf = true := by decide
theorem test_decPair_not_valid_in_cnt : lineValidIn ⟨.cnt, 7⟩ (.decPair 1 2) = false := by decide
theorem test_enc_len_zero_in_run_is_illegal : encLegal ⟨.run, 7, 0⟩ = false := by decide
theorem test_enc_value_in_idle_is_illegal : encLegal ⟨.idle, 7, 0⟩ = false := by decide

/-! ### Encodings: words written out bit by bit, unit, end, data (30_encoding.md R50) -/

theorem test_decode_W2 : decode (.command 0b0001000001) = .encByte 0x41 := by decide
theorem test_decode_W5 : decode (.command 0b0111111111) = .encEnd := by decide
theorem test_decode_W7 : decode (.command 0b1011111111) = .decByte 255 := by decide
theorem test_decode_W9 : decode (.command 0b1110100101) = .decEnd := by decide
theorem test_decode_pair_value_first : decodeBytes .pair [0x41, 0x03, 9] = .instr (.pair 0x41 3) [9] := by decide
theorem test_decode_half_pair : decodeBytes .pair [7] = .reject .tooFewBytes := by decide
theorem test_decode_eleven_bits : decodeBytes .ev [0, 4] = .reject .notACommandWord := by decide
theorem test_table_word_decByte : decodeTableWord 16 0x2FF = some (.decByte 255) := by decide
theorem test_table_word_pair : decodeTableWord 16 0x4103 = some (.pair 0x41 3) := by decide
theorem test_canonical_words : canonicalWord 0x0FF = true ∧ canonicalWord 0x100 = true ∧ canonicalWord 0x101 = false ∧
    canonicalWord 0x2FF = true ∧ canonicalWord 0x3A5 = false := by decide

/-! ### One step -/

/-- E7: a full run closed by an equal byte. -/
theorem test_encByte_E7 : answers (exec (.encByte 7) (st ⟨.run, 7, 255⟩ decReset))
    { st ⟨.run, 7, 1⟩ decReset with encOut := [255, 7], encStatus := some .ok } = true := by decide
/-- E2: the first byte equal to the reset value still starts a run. -/
theorem test_encByte_E2 : answers (exec (.encByte 0) (st ⟨.idle, 0, 0⟩ decReset))
    { st ⟨.run, 0, 1⟩ decReset with encOut := [0], encStatus := some .ok } = true := by decide
/-- E15: END on a full run. -/
theorem test_encEnd_E15 : answers (exec .encEnd (st ⟨.run, 7, 255⟩ decReset))
    { st ⟨.idle, 0, 0⟩ decReset with encOut := [255], encStatus := some .ok } = true := by decide
/-- E13: END of an empty stream emits nothing. -/
theorem test_encEnd_E13 : answers (exec .encEnd (st ⟨.idle, 0, 0⟩ decReset))
    { st ⟨.idle, 0, 0⟩ decReset with encStatus := some .ok } = true := by decide
/-- D4: three copies. -/
theorem test_decByte_D4 : answers (exec (.decByte 3) (st encReset ⟨.cnt, 7⟩))
    { st encReset ⟨.val, 7⟩ with decOut := [7, 7, 7], decStatus := some .ok } = true := by decide
/-- D2: a stale value is overwritten. -/
theorem test_decByte_D2 : answers (exec (.decByte 0) (st encReset ⟨.val, 9⟩))
    { st encReset ⟨.cnt, 0⟩ with decStatus := some .ok } = true := by decide
/-- D11: the truncated pair. -/
theorem test_decEnd_D11 : answers (exec .decEnd (st encReset ⟨.cnt, 7⟩))
    { st encReset ⟨.err, 7⟩ with decStatus := some .malformedInput } = true := by decide
/-- D10: even length, `dec.val` cleared. -/
theorem test_decEnd_D10 : answers (exec .decEnd (st encReset ⟨.val, 7⟩))
    { st encReset ⟨.val, 0⟩ with decStatus := some .ok } = true := by decide
/-- DS3 as one pair: two sevens, not seven twos. -/
theorem test_pair_DS3 : answers (exec (.pair 7 2) (st encReset decReset))
    { st encReset ⟨.val, 7⟩ with decOut := [7, 7], decStatus := some .ok } = true := by decide
/-- P4 step 6 as a pair: ERR absorbs it. -/
theorem test_pair_in_err : answers (exec (.pair 9 1) (st encReset ⟨.err, 9⟩))
    { st encReset ⟨.err, 9⟩ with decStatus := some .malformedInput } = true := by decide
/-- X4: RESET together with a command wins. -/
theorem test_reset_X4 : answers (step { st ⟨.run, 7, 1⟩ decReset with pending := [.reset (some (.command 0x008))] })
    (st encReset decReset) = true := by decide
/-- X3: RESET clears the error and the encoder. -/
theorem test_reset_X3 : answers (step { st ⟨.run, 7, 1⟩ ⟨.err, 9⟩ with pending := [.reset none] })
    (st encReset decReset) = true := by decide
/-- E17: nonzero data in an END word is ignored, through `withFetchWord` and `step`. -/
theorem test_fetch_E17 : answers (step ((st ⟨.run, 7, 9⟩ decReset).withFetchWord 16 0x1AB))
    { st encReset decReset with encOut := [9], encStatus := some .ok } = true := by decide

/-! ### The functions and the notation -/

/-- ES15 from the 255th four on: two more fours and a six. -/
theorem test_encode_ES15_end : rleEncodeFrom 4 255 [4, 4, 6] = [255, 4, 2, 6, 1] := by decide
/-- ES6, the order-sensitive contract (42_codec_laws.md R120). -/
theorem test_encode_ES6 : rleEncode [1, 1, 1, 2, 2, 3] = [1, 3, 2, 2, 3, 1] := by decide
/-- DS8 and DS13. -/
theorem test_decode_DS8 : rleDecode [7, 0, 8, 2] = .bytes [8, 8] := by decide
theorem test_decode_DS13 : rleDecode [5, 2, 9] = .malformedInput := by decide
/-- `ENC.BYTE 0x41 ; A` -/
theorem test_read_encByte : readLine ['E', 'N', 'C', '.', 'B', 'Y', 'T', 'E', ' ', '0', 'x', '4', '1', ' ', ';', ' ', 'A'] =
    .line (.encByte 0x41) := by decide
/-- `DEC.BYTE 256` is no line: a byte is 0 to 255 (30_encoding.md R61). -/
theorem test_read_byte_too_large : readLine ['D', 'E', 'C', '.', 'B', 'Y', 'T', 'E', ' ', '2', '5', '6'] = .notALine := by decide
/-- `ENC.STREAM [1, 2]` -/
theorem test_read_stream : readLine ['E', 'N', 'C', '.', 'S', 'T', 'R', 'E', 'A', 'M', ' ', '[', '1', ',', ' ', '2', ']'] =
    .line (.encStream [1, 2]) := by decide
/-- `RESET`, a comment line, `DEC.END`. -/
theorem test_read_program : readProgram
    ['R', 'E', 'S', 'E', 'T', '\n', ' ', ';', ' ', 'x', '\n', 'D', 'E', 'C', '.', 'E', 'N', 'D'] = some [.reset, .decEnd] := by
  decide
/-- `ENC.RUN 5, 0` is no line (30_encoding.md R62). -/
theorem test_read_run_of_zero : readLine ['E', 'N', 'C', '.', 'R', 'U', 'N', ' ', '5', ',', ' ', '0'] = .notALine := by decide

/-! ### Witnesses: concrete values that meet a statement's hypotheses together -/

theorem witness_ResetEventRestoresBothUnits :
    { st ⟨.run, 7, 0⟩ ⟨.err, 9⟩ with pending := [.reset (some (.pair 1 2)), .reset none] }.pending =
      .reset (some (.pair 1 2)) :: [.reset none] := rfl
theorem witness_IdleStepHoldsTheState : (st ⟨.run, 7, 3⟩ ⟨.cnt, 9⟩).pending = [] := rfl
theorem witness_StepRunsTheDecodedItem :
    { State.reset with pending := [.present (.command 0x1FF)] }.pending = .present (.command 0x1FF) :: [] := rfl
theorem witness_ByteStreamsDecodeBack_ev :
    ∀ i ∈ [Instr.encByte 255, .encEnd, .decByte 0, .decEnd], formatOf i = .ev := by decide
theorem witness_ByteStreamsDecodeBack_pair : ∀ i ∈ [Instr.pair 255 0, .pair 0 255], formatOf i = .pair := by decide
theorem witness_EncByteResult_starts : encLegal (st ⟨.idle, 0, 0⟩ decReset).enc = true ∧
    (st ⟨.idle, 0, 0⟩ decReset).enc.st = .idle := by decide
theorem witness_EncByteResult_continues : encLegal (st ⟨.run, 7, 254⟩ decReset).enc = true ∧
    (st ⟨.run, 7, 254⟩ decReset).enc.st = .run ∧ (7 : Byte) = (st ⟨.run, 7, 254⟩ decReset).enc.val ∧
    (st ⟨.run, 7, 254⟩ decReset).enc.len < 255 := by decide
theorem witness_EncByteResult_full : encLegal (st ⟨.run, 7, 255⟩ decReset).enc = true ∧
    (st ⟨.run, 7, 255⟩ decReset).enc.st = .run ∧ (st ⟨.run, 7, 255⟩ decReset).enc.len = 255 := by decide
theorem witness_EncByteResult_differs : encLegal (st ⟨.run, 7, 1⟩ decReset).enc = true ∧
    (st ⟨.run, 7, 1⟩ decReset).enc.st = .run ∧ (8 : Byte) ≠ (st ⟨.run, 7, 1⟩ decReset).enc.val := by decide
theorem witness_EncEndResult_run : encLegal (st ⟨.run, 0, 1⟩ decReset).enc = true ∧
    (st ⟨.run, 0, 1⟩ decReset).enc.st = .run := by decide
theorem witness_EncEndResult_idle : encLegal State.reset.enc = true ∧ State.reset.enc.st = .idle := by decide
theorem witness_EncCommandsAreRefusedOutsideTheInvariant : encLegal (st ⟨.run, 7, 0⟩ decReset).enc = false ∧
    isEncInstr .encEnd = true ∧ isEncInstr .decEnd = false := by decide
/-- The three states of DEC.BYTE, DEC.END and PAIR. -/
theorem witness_DecResults : (st encReset ⟨.val, 9⟩).dec.st = .val ∧ (st encReset ⟨.cnt, 0⟩).dec.st = .cnt ∧
    (st encReset ⟨.err, 255⟩).dec.st = .err := by decide
theorem witness_EncCommandFrame : isEncInstr (.encByte 8) = true ∧ runs (exec (.encByte 8) (st ⟨.run, 7, 255⟩ ⟨.err, 1⟩)) = true := by
  decide
theorem witness_DecCommandFrame : isEncInstr (.pair 8 255) = false ∧ runs (exec (.pair 8 255) (st ⟨.run, 7, 255⟩ ⟨.cnt, 1⟩)) = true := by
  decide
/-- StepOutputWidths and StatusFollowsTheUnit: each instruction answers a next state. -/
theorem witness_StepOutputWidths : runs (exec (.encByte 7) State.reset) = true ∧ runs (exec .encEnd State.reset) = true ∧
    runs (exec (.decByte 255) (st encReset ⟨.cnt, 7⟩)) = true ∧ runs (exec .decEnd (st encReset ⟨.cnt, 7⟩)) = true := by decide
theorem witness_OutputsAreNeverWithdrawn :
    runs (runSteps 2 { State.reset with encOut := [1], pending := [.present (.command 7), .reset none] }) = true := by decide
theorem witness_MalformedInputIsRaisedOnlyByDecEndInCnt : (st encReset ⟨.cnt, 7⟩).dec.st ≠ .err ∧
    runs (step { st encReset ⟨.cnt, 7⟩ with pending := [.present (.command 0x300)] }) = true := by decide
theorem witness_ErrorStateAbsorbsCommands : (st encReset ⟨.err, 9⟩).dec.st = .err ∧ isEncInstr (.decByte 1) = false ∧
    (∀ e ∈ [Event.present (.command 0x201), .present (.command 0x300)], isReset e = false) ∧
    runs (runSteps 2 { st encReset ⟨.err, 9⟩ with pending := [.present (.command 0x201), .present (.command 0x300)] }) = true := by
  decide
theorem witness_ErrorStateAbsorbsCommands_reset :
    { st encReset ⟨.err, 9⟩ with pending := [.reset none] }.pending = .reset none :: [] := rfl
theorem witness_UnitsCommute : isEncInstr (.encByte 4) = true ∧ isEncInstr (.decByte 8) = false := by decide
theorem witness_SidesDependOnTheirOwnEvents :
    runs (runEvents [.present (.command 4), .present (.command 0x208), .present (.command 0x300)] State.reset) = true ∧
    encSide (st encReset ⟨.err, 9⟩) = encSide State.reset ∧ decSide (st ⟨.run, 7, 255⟩ decReset) = decSide State.reset := by decide
theorem witness_InvariantIsKeptByEveryStep : Inv (st ⟨.run, 7, 255⟩ ⟨.cnt, 9⟩) ∧
    runs (step { st ⟨.run, 7, 255⟩ ⟨.cnt, 9⟩ with pending := [.present (.command 0x300)] }) = true := by decide
theorem witness_EveryCommandIsAccepted : Inv { st ⟨.run, 0, 1⟩ ⟨.err, 9⟩ with decStatus := some .malformedInput } ∧
    encLegal (st ⟨.run, 0, 1⟩ ⟨.err, 9⟩).enc = true := by decide
/-- The premises of the ENC laws: the unit in its reset state beside any DEC unit, a nonempty input, and a prefix. -/
theorem witness_EncLaws : (st ⟨.idle, 0, 0⟩ ⟨.err, 9⟩).enc = ⟨.idle, 0, 0⟩ ∧ ([7, 7] : List Byte) ≠ [] ∧
    (st ⟨.idle, 0, 0⟩ ⟨.err, 9⟩).encOut = [] ∧ 1 ≤ 3 ∧ 3 ≤ ([7, 7] : List Byte).length + 1 ∧
    runs (runEvents (encBytes [7, 7]) (st ⟨.idle, 0, 0⟩ ⟨.err, 9⟩)) = true := by decide
/-- The premises of the DEC laws: the unit in its reset state beside any legal ENC unit, both parities. -/
theorem witness_DecLaws : (st ⟨.run, 7, 255⟩ ⟨.val, 0⟩).dec = ⟨.val, 0⟩ ∧ encLegal (st ⟨.run, 7, 255⟩ ⟨.val, 0⟩).enc = true ∧
    ([7, 2] : List Byte).length % 2 = 0 ∧ ([5, 2, 9] : List Byte).length % 2 = 1 ∧ 1 ≤ 3 ∧
    3 ≤ ([5, 2, 9] : List Byte).length := by decide
theorem witness_EncRunResult :
    (∀ x ∈ [Event.present (.command 4), .present (.command 0x300)], isReset x = false ∧ endsStream .enc x = false) ∧
    endsStream .enc (.present (.command 0x1AB)) = true ∧ isReset (.reset none) = true := by decide
theorem witness_DecRunResult :
    (∀ x ∈ [Event.present (.command 0x100), .present (.pair 7 2)], isReset x = false ∧ endsStream .dec x = false) ∧
    endsStream .dec (.present (.command 0x3A5)) = true ∧ isReset (.reset none) = true := by decide
theorem witness_StreamsInARowAreIndependent : ([[4, 4], [], [4]] : List (List Byte)) ≠ [] ∧
    ([[(8, 2)], []] : List (List (Byte × Byte))) ≠ [] := by decide
theorem witness_DutifulHostEndsInResetStates :
    hostFollowsRules [.reset none, .present (.command 4), .present (.command 0x209), .present (.command 0x100),
      .present (.command 0x300)] = true := by decide
theorem witness_RoundTrip : State.reset.enc = ⟨.idle, 0, 0⟩ ∧ State.reset.dec = ⟨.val, 0⟩ ∧
    1 ≤ 2 ∧ 2 ≤ ([7] : List Byte).length + 1 ∧ 3 ≤ (rleEncode [7]).length + 1 := by decide
/-- `ENC.RUN 5, 300` is a line, and `ENC.RUN 5, 0x3` is none (the model's form of n, log 16). -/
theorem test_read_run_length : readLine ['E', 'N', 'C', '.', 'R', 'U', 'N', ' ', '5', ',', ' ', '3', '0', '0'] =
    .line (.encRun 5 300) ∧
    readLine ['E', 'N', 'C', '.', 'R', 'U', 'N', ' ', '5', ',', ' ', '0', 'x', '3'] = .notALine := by decide
theorem witness_EncodeIsRunByRun : 1 ≤ 511 := by decide
/-- CodecLengths, OutputSizeBounds and CanonicalIsEncoded: decodable data, canonical and not. -/
theorem witness_DecodedData : rleDecode [5, 2] = .bytes [5, 5] ∧ canonical [5, 2] = true ∧
    rleDecode [1, 1, 1, 1] = .bytes [1, 1] ∧ canonical [1, 1, 1, 1] = false ∧
    rleEncode [5, 5] = rleEncode [5, 5] ∧ (∀ b ∈ ([9, 9, 9] : List Byte), b = 9) := by decide
theorem witness_Concatenation : ([5, 2] : List Byte).length % 2 = 0 := by decide
theorem witness_DecodeExpandsEachPair : ([(5, 2), (6, 0)] : List (Byte × Byte))[1]? = some (6, 0) := by decide
theorem witness_ZeroCountExpandsToNothing : ([5, 2] : List Byte).length % 2 = 0 ∧ (st encReset ⟨.cnt, 7⟩).dec.st = .cnt := by decide

end Sys2Proof.Tests
end

section
/-! The scope: a step of the machine runs one decoded instruction (00_scope.md R7). -/

namespace Sys2Proof

/-- No instruction has a side condition on its operands (30_encoding.md R59). -/
@[simp] theorem Instr.wf_eq_true (i : Instr) : i.wf = true := by
  cases i <;> rfl

end Sys2Proof

namespace Sys2Proof.Machine

/-- A presented item is handled by running its instruction (10_state.md R10). -/
@[simp] theorem handle_present_item (item : Item) (s : State) :
    handle (.present item) s = exec (decode item) s := rfl

/-- Settles O5: the step takes the item (`step_of_cons`), and handling an item is running its instruction. -/
theorem stepRunsTheDecodedItem : Obligations.StepRunsTheDecodedItem := by
  intro item rest s hpending
  have hstep : step s = handle (.present item) { s with pending := rest } := step_of_cons hpending
  exact ⟨Instr.wf_eq_true (decode item), hstep.trans (handle_present_item item _)⟩

end Sys2Proof.Machine
end

section
/-! The two units as instructions reach them: what an instruction makes of its own unit's registers, what it appends to that
unit's output, and that it touches nothing else (10_state.md R20, R24). -/

namespace Sys2Proof.Machine

/-! ### Effects -/

/-- The ENC registers after an ENC command on a legal pattern (40_encoder.md R71, R72). -/
def encRegsAfter : Instr → EncUnit → EncUnit
  | .encByte b, u => encByteRegs u b
  | .encEnd, _ => encReset
  | .decByte _, u => u
  | .decEnd, u => u
  | .pair _ _, u => u

/-- The bytes an ENC command appends to `enc.out` (40_encoder.md R71, R72). -/
def encBytesOut : Instr → EncUnit → List Byte
  | .encByte b, u => encByteEmits u b
  | .encEnd, u => encEndEmits u
  | .decByte _, _ => []
  | .decEnd, _ => []
  | .pair _ _, _ => []

/-- An ENC command as it changes the machine. -/
def encEffect (i : Instr) (s : State) : State :=
  reportEnc (setEnc (encRegsAfter i s.enc) (emitEnc (encBytesOut i s.enc) s))

/-- The DEC registers after `DEC.BYTE b` (41_decoder.md R91). -/
def decByteRegs (b : Byte) (d : DecUnit) : DecUnit :=
  match d.st with
  | .val => ⟨.cnt, b⟩
  | .cnt => ⟨.val, d.val⟩
  | .err => d

/-- The bytes `DEC.BYTE b` appends to `dec.out` (41_decoder.md R91). -/
def decByteBytesOut (b : Byte) (d : DecUnit) : List Byte :=
  match d.st with
  | .val => []
  | .cnt => pairMeaning d.val b
  | .err => []

/-- The DEC registers after `DEC.END` (41_decoder.md R92). -/
def decEndRegs (d : DecUnit) : DecUnit :=
  match d.st with
  | .val => decReset
  | .cnt => ⟨.err, d.val⟩
  | .err => d

/-- The DEC registers after a DEC command or a pair. -/
def decRegsAfter : Instr → DecUnit → DecUnit
  | .encByte _, d => d
  | .encEnd, d => d
  | .decByte b, d => decByteRegs b d
  | .decEnd, d => decEndRegs d
  | .pair v c, d => decByteRegs c (decByteRegs v d)

/-- The bytes a DEC command or a pair appends to `dec.out`. -/
def decBytesOut : Instr → DecUnit → List Byte
  | .encByte _, _ => []
  | .encEnd, _ => []
  | .decByte b, d => decByteBytesOut b d
  | .decEnd, _ => []
  | .pair v c, d => decByteBytesOut v d ++ decByteBytesOut c (decByteRegs v d)

/-- A DEC command or a pair as it changes the machine. -/
def decEffect (i : Instr) (s : State) : State :=
  reportDec (setDec (decRegsAfter i s.dec) (emitDec (decBytesOut i s.dec) s))

@[simp] theorem emitDec_nil (s : State) : emitDec [] s = s := by
  simp [emitDec]

theorem decByteStep_eq_decEffect (b : Byte) (s : State) : decByteStep b s = decEffect (.decByte b) s := by
  simp only [decByteStep, decEffect, decRegsAfter, decBytesOut, decByteRegs, decByteBytesOut]
  cases s.dec.st
  case val => simp
  case cnt => rfl
  case err => simp [setDec]

/-- Two `DEC.BYTE` effects in a row are one effect: that of the pair (30_encoding.md R62; log 1). -/
theorem decEffect_decByte_decByte (v c : Byte) (s : State) :
    decEffect (.decByte c) (decEffect (.decByte v) s) = decEffect (.pair v c) s := by
  simp [decEffect, decRegsAfter, decBytesOut, reportDec, setDec, emitDec]

/-- An ENC command answers its effect on the legal register patterns, and is refused on the others. -/
theorem exec_of_isEncInstr {i : Instr} (hi : isEncInstr i = true) (s : State) :
    exec i s = onLegalEnc s (encEffect i) := by
  cases i with
  | encByte b => rfl
  | encEnd => rfl
  | decByte b => simp [isEncInstr] at hi
  | decEnd => simp [isEncInstr] at hi
  | pair v c => simp [isEncInstr] at hi

theorem exec_of_isEncInstr_of_legal {i : Instr} {s : State} (hi : isEncInstr i = true)
    (hlegal : encLegal s.enc = true) : exec i s = .next (encEffect i s) := by
  rw [exec_of_isEncInstr hi, onLegalEnc_of_legal _ hlegal]

/-- A DEC command or a pair answers its effect in every state. -/
theorem exec_of_not_isEncInstr {i : Instr} (hi : isEncInstr i = false) (s : State) :
    exec i s = .next (decEffect i s) := by
  cases i with
  | encByte b => simp [isEncInstr] at hi
  | encEnd => simp [isEncInstr] at hi
  | decByte b => rw [exec_decByte, decByteStep_eq_decEffect]
  | decEnd =>
    simp only [exec, execDecEnd, decEffect, decRegsAfter, decBytesOut, decEndRegs]
    cases s.dec.st
    case val => simp
    case cnt => simp [raiseMalformedInput]
    case err => simp [setDec]
  | pair v c =>
    rw [exec_pair, decByteStep_eq_decEffect, decByteStep_eq_decEffect, decEffect_decByte_decByte]

/-- An ENC command that answers a next state answers its effect. -/
theorem eq_encEffect {i : Instr} {s t : State} (hi : isEncInstr i = true) (h : exec i s = .next t) :
    encLegal s.enc = true ∧ t = encEffect i s := by
  rw [exec_of_isEncInstr hi] at h
  obtain ⟨hlegal, rfl⟩ := onLegalEnc_eq_next.mp h
  exact ⟨hlegal, rfl⟩

/-- A DEC command or a pair that answers a next state answers its effect. -/
theorem eq_decEffect {i : Instr} {s t : State} (hi : isEncInstr i = false) (h : exec i s = .next t) :
    t = decEffect i s := by
  rw [exec_of_not_isEncInstr hi, Host.Outcome.next.injEq] at h
  exact h.symm

/-! ### What an effect writes, field by field -/

@[simp] theorem encEffect_enc (i : Instr) (s : State) : (encEffect i s).enc = encRegsAfter i s.enc := rfl
@[simp] theorem encEffect_dec (i : Instr) (s : State) : (encEffect i s).dec = s.dec := rfl
@[simp] theorem encEffect_encOut (i : Instr) (s : State) :
    (encEffect i s).encOut = s.encOut ++ encBytesOut i s.enc := rfl
@[simp] theorem encEffect_decOut (i : Instr) (s : State) : (encEffect i s).decOut = s.decOut := rfl
@[simp] theorem encEffect_encStatus (i : Instr) (s : State) : (encEffect i s).encStatus = some .ok := rfl
@[simp] theorem encEffect_decStatus (i : Instr) (s : State) : (encEffect i s).decStatus = s.decStatus := rfl
@[simp] theorem encEffect_pending (i : Instr) (s : State) : (encEffect i s).pending = s.pending := rfl

@[simp] theorem decEffect_enc (i : Instr) (s : State) : (decEffect i s).enc = s.enc := rfl
@[simp] theorem decEffect_dec (i : Instr) (s : State) : (decEffect i s).dec = decRegsAfter i s.dec := rfl
@[simp] theorem decEffect_encOut (i : Instr) (s : State) : (decEffect i s).encOut = s.encOut := rfl
@[simp] theorem decEffect_decOut (i : Instr) (s : State) :
    (decEffect i s).decOut = s.decOut ++ decBytesOut i s.dec := rfl
@[simp] theorem decEffect_encStatus (i : Instr) (s : State) : (decEffect i s).encStatus = s.encStatus := rfl
@[simp] theorem decEffect_decStatus (i : Instr) (s : State) :
    (decEffect i s).decStatus = some (decStatusOf (decRegsAfter i s.dec)) := rfl
@[simp] theorem decEffect_pending (i : Instr) (s : State) : (decEffect i s).pending = s.pending := rfl

/-- The status of a DEC step as the rule words it (10_state.md R20). -/
theorem decStatusOf_eq_ite (d : DecUnit) :
    decStatusOf d = if d.st = .err then .malformedInput else .ok := by
  unfold decStatusOf
  cases d.st <;> rfl

/-- An ENC command leads to a legal pattern (10_state.md R14). -/
theorem encLegal_encRegsAfter {i : Instr} {u : EncUnit} (hu : encLegal u = true) :
    encLegal (encRegsAfter i u) = true := by
  cases i with
  | encByte b => exact encLegal_encByteRegs u b
  | encEnd => exact encLegal_encReset
  | decByte b => exact hu
  | decEnd => exact hu
  | pair v c => exact hu

end Sys2Proof.Machine
end

section
/-! The machine at reset and at rest (10_state.md R10, R26), and what a command of one unit leaves of the other (R24). -/

namespace Sys2Proof.Machine

/-- Settles O1: `State.reset` holds the table of R26, value by value. -/
theorem resetHoldsTheSpecifiedValues : Obligations.ResetHoldsTheSpecifiedValues :=
  ⟨rfl, rfl, rfl, rfl, rfl, rfl, rfl, rfl, rfl, rfl⟩

/-- Settles O2: the ENC unit's reset pattern is legal, and no status has been reported. -/
theorem resetMeetsTheInvariant : Obligations.ResetMeetsTheInvariant :=
  ⟨encLegal_encReset, by decide, by decide⟩

/-- Settles O4: a step with no event is the idle case of `step`. -/
theorem idleStepHoldsTheState : Obligations.IdleStepHoldsTheState :=
  fun _ hpending => step_of_nil hpending

/-- Settles O13: ENC commands are guarded by `onLegalEnc`, the others answer their effect in every state. -/
theorem encCommandsAreRefusedOutsideTheInvariant : Obligations.EncCommandsAreRefusedOutsideTheInvariant := by
  intro i s hillegal
  constructor
  · intro hi
    rw [exec_of_isEncInstr hi]
    exact onLegalEnc_of_not_legal _ hillegal
  · intro hi
    exact ⟨decEffect i s, exec_of_not_isEncInstr hi s⟩

/-- Settles O17: the frame of `encEffect`, whose output is appended. -/
theorem encCommandFrame : Obligations.EncCommandFrame := by
  intro i s t hi hexec
  obtain ⟨-, rfl⟩ := eq_encEffect hi hexec
  exact ⟨rfl, rfl, rfl, rfl, fun k hk => List.getElem?_append_left hk⟩

/-- Settles O18: the frame of `decEffect`, whose output is appended. -/
theorem decCommandFrame : Obligations.DecCommandFrame := by
  intro i s t hi hexec
  obtain rfl := eq_decEffect hi hexec
  exact ⟨rfl, rfl, rfl, rfl, fun k hk => List.getElem?_append_left hk⟩

/-- Settles O20: each effect ends with its unit's report. -/
theorem statusFollowsTheUnit : Obligations.StatusFollowsTheUnit := by
  refine ⟨fun i s t hexec => ⟨fun hi => ?_, fun hi => ?_⟩, rfl, rfl⟩
  · obtain ⟨-, rfl⟩ := eq_encEffect hi hexec
    exact encEffect_encStatus i s
  · obtain rfl := eq_decEffect hi hexec
    rw [decEffect_decStatus, decStatusOf_eq_ite, decEffect_dec]

/-- The effects of the two units commute: each reads and writes its own unit's fields. -/
theorem encEffect_decEffect_comm (i j : Instr) (s : State) :
    encEffect i (decEffect j s) = decEffect j (encEffect i s) := rfl

/-- Settles O24: the effects commute, and a DEC command leaves the pattern that the ENC command's guard reads. -/
theorem unitsCommute : Obligations.UnitsCommute := by
  intro i j s hi hj
  rw [exec_of_not_isEncInstr hj s, andThen_next]
  cases hlegal : encLegal s.enc with
  | true =>
    have hlegal' : encLegal (decEffect j s).enc = true := hlegal
    rw [exec_of_isEncInstr_of_legal hi hlegal, andThen_next, exec_of_not_isEncInstr hj,
      exec_of_isEncInstr_of_legal hi hlegal', encEffect_decEffect_comm]
  | false =>
    have hlegal' : encLegal (decEffect j s).enc = false := hlegal
    rw [exec_of_isEncInstr hi, onLegalEnc_of_not_legal _ hlegal, andThen_refused,
      exec_of_isEncInstr hi, onLegalEnc_of_not_legal _ hlegal']

end Sys2Proof.Machine
end

section
/-! The invariant (10_state.md R14, R20) along steps and runs. -/

namespace Sys2Proof.Machine

/-- The status of a DEC step is MalformedInput exactly in ERR (10_state.md R20). -/
theorem decStatusOf_eq_malformedInput_iff (d : DecUnit) : decStatusOf d = .malformedInput ↔ d.st = .err := by
  rw [decStatusOf_eq_ite]
  split <;> simp_all

/-- RESET establishes the invariant from any state. -/
theorem inv_resetCore (s : State) : Inv (resetCore s) :=
  ⟨encLegal_encReset, by simp, by simp [decReset]⟩

theorem inv_encEffect {s : State} (i : Instr) (hs : Inv s) : Inv (encEffect i s) := by
  obtain ⟨hlegal, -, hdec⟩ := hs
  exact ⟨encLegal_encRegsAfter hlegal, by simp, hdec⟩

theorem inv_decEffect {s : State} (i : Instr) (hs : Inv s) : Inv (decEffect i s) := by
  obtain ⟨hlegal, hok, -⟩ := hs
  refine ⟨hlegal, hok, ?_⟩
  rw [decEffect_decStatus, decEffect_dec, Option.some.injEq]
  exact decStatusOf_eq_malformedInput_iff _

theorem exec_keeps_inv {i : Instr} {s t : State} (hs : Inv s) (hexec : exec i s = .next t) : Inv t := by
  cases hi : isEncInstr i with
  | true =>
    obtain ⟨-, rfl⟩ := eq_encEffect hi hexec
    exact inv_encEffect i hs
  | false =>
    obtain rfl := eq_decEffect hi hexec
    exact inv_decEffect i hs

/-- Settles O26: an idle step keeps the state, RESET establishes the invariant, and each instruction keeps it. The invariant
does not read the events that wait. -/
theorem invariantIsKeptByEveryStep : Obligations.InvariantIsKeptByEveryStep := by
  intro s t hs hstep
  obtain ⟨-, rfl⟩ | ⟨d, rest, -, rfl⟩ | ⟨item, rest, -, hexec⟩ := step_eq_next hstep
  · exact hs
  · exact inv_resetCore _
  · have hs' : Inv { s with pending := rest } := hs
    exact exec_keeps_inv hs' hexec

/-- The invariant along a run of any number of steps. -/
theorem runSteps_keeps_inv {k : Nat} {s t : State} (hs : Inv s) (hrun : runSteps k s = .next t) : Inv t := by
  induction k generalizing s with
  | zero =>
    rw [runSteps_zero, Host.Outcome.next.injEq] at hrun
    exact hrun ▸ hs
  | succ k ih =>
    rw [runSteps_succ, andThen_eq_next] at hrun
    obtain ⟨s₁, hstep, hrest⟩ := hrun
    exact ih (invariantIsKeptByEveryStep s s₁ hs hstep) hrest

theorem Reachable.inv {s : State} (hs : Reachable s) : Inv s := by
  obtain ⟨es, k, hrun⟩ := hs
  have hreset : Inv (present es State.reset) := resetMeetsTheInvariant
  exact runSteps_keeps_inv hreset hrun

theorem Reachable.encLegal {s : State} (hs : Reachable s) : encLegal s.enc = true :=
  hs.inv.left

end Sys2Proof.Machine
end

section
/-! Noninterference of the two units: a unit's side of a run is that of its own events and RESET (10_state.md R24). -/

namespace Sys2Proof.Machine

/-- A run seen through `side`, when the events outside `own` leave `side` as it is and the handling of those in `own` is a function
of it: the events outside `own` can be left out, and the rest of the state can be another. -/
theorem runEvents_filter {α : Type} {side : State → α} {own : Event → Bool}
    (hown : ∀ {e s s' t}, own e = true → side s' = side s → handle e s = .next t →
      ∃ t', handle e s' = .next t' ∧ side t' = side t)
    (hother : ∀ {e s t}, own e = false → handle e s = .next t → side t = side s)
    {es : List Event} {s s' t : State} (hside : side s' = side s) (hrun : runEvents es s = .next t) :
    ∃ t', runEvents (es.filter own) s' = .next t' ∧ side t' = side t := by
  induction es generalizing s s' with
  | nil =>
    rw [runEvents_nil, Host.Outcome.next.injEq] at hrun
    exact ⟨s', rfl, hrun ▸ hside⟩
  | cons e es ih =>
    rw [runEvents_cons, andThen_eq_next] at hrun
    obtain ⟨s₁, hfirst, hrest⟩ := hrun
    cases he : own e with
    | true =>
      obtain ⟨s₁', hfirst', hside₁⟩ := hown he hside hfirst
      rw [List.filter_cons_of_pos he, runEvents_cons, hfirst', andThen_next]
      exact ih hside₁ hrest
    | false =>
      rw [List.filter_cons_of_neg (by simp [he])]
      exact ih (hside.trans (hother he hfirst).symm) hrest

@[simp] theorem handle_reset (d : Option Item) (s : State) : handle (.reset d) s = .next (resetCore s) := rfl

@[simp] theorem isDecEvent_present (item : Item) :
    isDecEvent (.present item) = !isEncInstr (decode item) := by
  simp only [isDecEvent]
  cases decode item <;> rfl

theorem encSide_eq_iff {s s' : State} :
    encSide s' = encSide s ↔ s'.enc = s.enc ∧ s'.encOut = s.encOut ∧ s'.encStatus = s.encStatus := by
  simp [encSide]

theorem decSide_eq_iff {s s' : State} :
    decSide s' = decSide s ↔ s'.dec = s.dec ∧ s'.decOut = s.decOut ∧ s'.decStatus = s.decStatus := by
  simp [decSide]

/-- What an ENC event or RESET makes of the ENC side depends on that side alone. -/
theorem handle_encSide_congr {e : Event} {s s' t : State} (he : isDecEvent e = false)
    (hside : encSide s' = encSide s) (h : handle e s = .next t) :
    ∃ t', handle e s' = .next t' ∧ encSide t' = encSide t := by
  obtain ⟨henc, hout, -⟩ := encSide_eq_iff.mp hside
  cases e with
  | reset d =>
    rw [handle_reset, Host.Outcome.next.injEq] at h
    subst h
    exact ⟨resetCore s', rfl, encSide_eq_iff.mpr ⟨rfl, hout, rfl⟩⟩
  | present item =>
    have hi : isEncInstr (decode item) = true := by simpa using he
    obtain ⟨hlegal, rfl⟩ := eq_encEffect hi h
    rw [handle_present_item, exec_of_isEncInstr_of_legal hi (henc ▸ hlegal)]
    exact ⟨_, rfl, encSide_eq_iff.mpr (by simp [henc, hout])⟩

/-- A DEC event leaves the ENC side. -/
theorem handle_encSide_frame {e : Event} {s t : State} (he : isDecEvent e = true) (h : handle e s = .next t) :
    encSide t = encSide s := by
  cases e with
  | reset d => simp [isDecEvent] at he
  | present item =>
    obtain rfl := eq_decEffect (by simpa using he) h
    rfl

/-- What a DEC event or RESET makes of the DEC side depends on that side alone. -/
theorem handle_decSide_congr {e : Event} {s s' t : State} (he : (isReset e || isDecEvent e) = true)
    (hside : decSide s' = decSide s) (h : handle e s = .next t) :
    ∃ t', handle e s' = .next t' ∧ decSide t' = decSide t := by
  obtain ⟨hdec, hout, -⟩ := decSide_eq_iff.mp hside
  cases e with
  | reset d =>
    rw [handle_reset, Host.Outcome.next.injEq] at h
    subst h
    exact ⟨resetCore s', rfl, decSide_eq_iff.mpr ⟨rfl, hout, rfl⟩⟩
  | present item =>
    have hi : isEncInstr (decode item) = false := by simpa [isReset] using he
    obtain rfl := eq_decEffect hi h
    rw [handle_present_item, exec_of_not_isEncInstr hi]
    exact ⟨_, rfl, decSide_eq_iff.mpr (by simp [hdec, hout])⟩

/-- An ENC event leaves the DEC side. -/
theorem handle_decSide_frame {e : Event} {s t : State} (he : (isReset e || isDecEvent e) = false)
    (h : handle e s = .next t) : decSide t = decSide s := by
  cases e with
  | reset d => simp [isReset] at he
  | present item =>
    obtain ⟨-, rfl⟩ := eq_encEffect (by simpa [isReset] using he) h
    rfl

/-- Settles O25: `runEvents_filter` for each side, with the unit's own events and RESET kept. -/
theorem sidesDependOnTheirOwnEvents : Obligations.SidesDependOnTheirOwnEvents := by
  intro es s s' t hrun
  constructor
  · intro hside
    exact runEvents_filter (fun he => handle_encSide_congr (by simpa using he))
      (fun he => handle_encSide_frame (by simpa using he)) hside hrun
  · intro hside
    exact runEvents_filter handle_decSide_congr handle_decSide_frame hside hrun

end Sys2Proof.Machine
end

section
/-! The register patterns reached from reset (10_state.md R14, R17). -/

namespace Sys2Proof.Machine

/-- Decoding an instruction's canonical item gives it back; of a BYTE command the `data` field is the byte (30_encoding.md R51). -/
theorem decode_encode (i : Instr) : decode (encode i) = i := by
  cases i with
  | encByte b =>
    revert b
    decide
  | encEnd => decide
  | decByte b =>
    revert b
    decide
  | decEnd => decide
  | pair v c => rfl

/-- Presenting one instruction runs it. -/
theorem runEvents_presents (i : Instr) (s : State) : runEvents [presents i] s = exec i s := by
  rw [runEvents_cons, handle_presents i s (decode_encode i)]
  cases exec i s <;> rfl

theorem reachable_of_runEvents {es : List Event} {t : State} (hrun : runEvents es State.reset = .next t) :
    Reachable t :=
  ⟨es, es.length, hrun⟩

/-- An ENC command presented after a run that ends in a legal pattern. -/
theorem runEvents_snoc_enc {i : Instr} (hi : isEncInstr i = true) {es : List Event} {s t : State}
    (hlegal : encLegal t.enc = true) (hrun : runEvents es s = .next t) :
    runEvents (es ++ [presents i]) s = .next (encEffect i t) := by
  rw [runEvents_append, hrun, andThen_next, runEvents_presents, exec_of_isEncInstr_of_legal hi hlegal]

/-- A DEC command or a pair presented after a run. -/
theorem runEvents_snoc_dec {i : Instr} (hi : isEncInstr i = false) {es : List Event} {s t : State}
    (hrun : runEvents es s = .next t) : runEvents (es ++ [presents i]) s = .next (decEffect i t) := by
  rw [runEvents_append, hrun, andThen_next, runEvents_presents, exec_of_not_isEncInstr hi]

/-- An equal byte below the cap lengthens the open run by one. -/
theorem encByteRegs_of_run (v : Byte) {n : Nat} (h : n < 255) :
    encByteRegs ⟨.run, v, BitVec.ofNat 8 n⟩ v = ⟨.run, v, BitVec.ofNat 8 (n + 1)⟩ := by
  have hc : runContinues ⟨.run, v, BitVec.ofNat 8 n⟩ v = true := by
    rw [runContinues_iff, BitVec.toNat_ofNat]
    exact ⟨rfl, by omega⟩
  simp [encByteRegs, hc, continueRun, BitVec.ofNat_add]

/-- `n + 1` equal bytes from reset, no more than the cap, open a run of that length. -/
theorem runEvents_equal_bytes (v : Byte) {n : Nat} (h : n < 255) :
    ∃ t, runEvents (encBytes (List.replicate (n + 1) v)) State.reset = .next t ∧
      t.enc = ⟨.run, v, BitVec.ofNat 8 (n + 1)⟩ := by
  induction n with
  | zero => exact ⟨_, runEvents_snoc_enc (i := .encByte v) rfl encLegal_encReset (runEvents_nil _), rfl⟩
  | succ n ih =>
    obtain ⟨s, hrun, henc⟩ := ih (by omega)
    have hsplit : encBytes (List.replicate (n + 2) v) =
        encBytes (List.replicate (n + 1) v) ++ [presents (.encByte v)] := by
      simp [encBytes, List.replicate_succ']
    refine ⟨encEffect (.encByte v) s, ?_, ?_⟩
    · rw [hsplit]
      exact runEvents_snoc_enc rfl (reachable_of_runEvents hrun).encLegal hrun
    · rw [encEffect_enc, henc]
      exact encByteRegs_of_run v h

/-- The legal patterns as R14 lists them. -/
theorem encLegal_iff (u : EncUnit) :
    encLegal u = true ↔ u = ⟨.idle, 0, 0⟩ ∨ (u.st = .run ∧ 1 ≤ u.len.toNat ∧ u.len.toNat ≤ 255) := by
  obtain ⟨st, val, len⟩ := u
  cases st with
  | idle => simp [encLegal]
  | run =>
    have hpos : len ≠ 0 ↔ 1 ≤ len.toNat := by bv_omega
    have hle : len.toNat ≤ 255 := by omega
    simp [encLegal, hle, ← hpos]

/-- The legal patterns, built: the reset state, or RUN with a value and a nonzero length. -/
def legalPattern : Option (Byte × { len : Byte // len ≠ 0 }) → { u : EncUnit // encLegal u = true }
  | none => ⟨encReset, encLegal_encReset⟩
  | some (v, len) => ⟨⟨.run, v, len.1⟩, bne_iff_ne.mpr len.2⟩

theorem legalPattern_bijective : Function.Bijective legalPattern := by
  constructor
  · intro a b h
    have hu := congrArg Subtype.val h
    rcases a with _ | ⟨v, len⟩ <;> rcases b with _ | ⟨w, len'⟩
    · rfl
    · simp [legalPattern, encReset] at hu
    · simp [legalPattern, encReset] at hu
    · obtain ⟨rfl, hlen⟩ : v = w ∧ len.1 = len'.1 := by simpa [legalPattern] using hu
      rw [Subtype.ext hlen]
  · rintro ⟨⟨st, v, len⟩, hu⟩
    cases st with
    | idle => exact ⟨none, Subtype.ext (encLegal_idle hu rfl).symm⟩
    | run => exact ⟨some (v, ⟨len, encLegal_run hu rfl⟩), rfl⟩

theorem card_byte : Nat.card Byte = 256 :=
  (Nat.card_congr BitVec.equivFin.toEquiv).trans (Nat.card_fin 256)

theorem card_nonzero_byte : Nat.card { len : Byte // len ≠ 0 } = 255 := by
  rw [Nat.card_eq_fintype_card, Fintype.card_subtype_compl, Fintype.card_subtype_eq,
    ← Nat.card_eq_fintype_card, card_byte]

theorem card_legal_patterns : Nat.card { u : EncUnit // encLegal u = true } = 65281 := by
  rw [← Nat.card_eq_of_bijective legalPattern legalPattern_bijective, Finite.card_option, Nat.card_prod,
    card_byte, card_nonzero_byte]

/-- A run of any length is built from equal bytes. -/
theorem run_pattern_reachable {v len : Byte} (hlen : len ≠ 0) : ∃ s, Reachable s ∧ s.enc = ⟨.run, v, len⟩ := by
  have hpos : len.toNat - 1 + 1 = len.toNat := by bv_omega
  obtain ⟨t, hrun, henc⟩ := runEvents_equal_bytes v (n := len.toNat - 1) (by omega)
  rw [hpos, BitVec.ofNat_toNat, BitVec.setWidth_eq] at henc
  exact ⟨t, reachable_of_runEvents hrun, henc⟩

/-- Settles O28: the invariant bounds the reachable patterns from above, equal bytes build every run, and the legal patterns
are the reset state and 256 times 255 runs. -/
theorem encReachableStates : Obligations.EncReachableStates := by
  refine ⟨fun u => ⟨?_, ?_⟩, card_legal_patterns⟩
  · rintro ⟨s, hs, rfl⟩
    exact (encLegal_iff s.enc).mp hs.encLegal
  · intro hu
    have hlegal : encLegal u = true := (encLegal_iff u).mpr hu
    obtain ⟨st, v, len⟩ := u
    cases st with
    | idle => exact ⟨State.reset, reachable_of_runEvents (runEvents_nil _), (encLegal_idle hlegal rfl).symm⟩
    | run => exact run_pattern_reachable (encLegal_run hlegal rfl)

/-- Settles O29: one `DEC.BYTE v` reaches `(CNT, v)`; a count of 0 after it reaches `(VAL, v)`, and `DEC.END` reaches
`(ERR, v)`. -/
theorem decReachableStates : Obligations.DecReachableStates := by
  rintro ⟨st, v⟩
  have hcnt := runEvents_snoc_dec (i := .decByte v) rfl (runEvents_nil State.reset)
  cases st with
  | val => exact ⟨_, reachable_of_runEvents (runEvents_snoc_dec (i := .decByte 0) rfl hcnt), rfl⟩
  | cnt => exact ⟨_, reachable_of_runEvents hcnt, rfl⟩
  | err => exact ⟨_, reachable_of_runEvents (runEvents_snoc_dec (i := .decEnd) rfl hcnt), rfl⟩

end Sys2Proof.Machine
end

section
/-! The output sequences (20_memory.md R32, R35): what a step appends, and that a run withdraws nothing. -/

namespace Sys2Proof.Machine

/-! ### Widths -/

/-- A `BYTE` opens a run with its value, or closes one with a count and a value, or emits nothing (40_encoder.md R71). -/
theorem length_encByteEmits_le (u : EncUnit) (b : Byte) : (encByteEmits u b).length ≤ 2 := by
  unfold encByteEmits
  split
  · simp
  · split <;> simp [closeRun]

theorem length_encEndEmits_le (u : EncUnit) : (encEndEmits u).length ≤ 1 := by
  unfold encEndEmits
  split <;> simp

@[simp] theorem length_pairMeaning (v c : Byte) : (pairMeaning v c).length = asCount c :=
  List.length_replicate

theorem length_decByteBytesOut (b : Byte) (d : DecUnit) :
    (decByteBytesOut b d).length = if d.st = .cnt then asCount b else 0 := by
  unfold decByteBytesOut
  cases d.st <;> simp

/-- Settles O19: the effects append `encBytesOut` and `decBytesOut`, whose lengths are those of the unit's two commands. -/
theorem stepOutputWidths : Obligations.StepOutputWidths := by
  intro s t
  refine ⟨fun b hexec => ?_, fun hexec => ?_, fun b hexec => ?_, fun hexec => ?_⟩
  · obtain ⟨-, rfl⟩ := eq_encEffect rfl hexec
    exact ⟨_, rfl, length_encByteEmits_le s.enc b⟩
  · obtain ⟨-, rfl⟩ := eq_encEffect rfl hexec
    exact ⟨_, rfl, length_encEndEmits_le s.enc⟩
  · obtain rfl := eq_decEffect rfl hexec
    exact ⟨_, rfl, length_decByteBytesOut b s.dec⟩
  · obtain rfl := eq_decEffect rfl hexec
    exact List.append_nil s.decOut

/-! ### Nothing is withdrawn -/

/-- The output sequences of `t` are those of `s`, with what was emitted in between appended (20_memory.md R32). -/
def OutputsExtend (s t : State) : Prop := s.encOut <+: t.encOut ∧ s.decOut <+: t.decOut

theorem OutputsExtend.refl (s : State) : OutputsExtend s s :=
  ⟨List.prefix_rfl, List.prefix_rfl⟩

theorem OutputsExtend.trans {s t u : State} (hst : OutputsExtend s t) (htu : OutputsExtend t u) : OutputsExtend s u :=
  ⟨hst.left.trans htu.left, hst.right.trans htu.right⟩

/-- An instruction appends to its own unit's output and leaves the other's. -/
theorem exec_outputsExtend {i : Instr} {s t : State} (hexec : exec i s = .next t) : OutputsExtend s t := by
  cases hi : isEncInstr i with
  | true =>
    obtain ⟨-, rfl⟩ := eq_encEffect hi hexec
    exact ⟨List.prefix_append _ _, List.prefix_rfl⟩
  | false =>
    obtain rfl := eq_decEffect hi hexec
    exact ⟨List.prefix_rfl, List.prefix_append _ _⟩

/-- An idle step and RESET keep both outputs, and a presented item is an instruction. -/
theorem step_outputsExtend {s t : State} (hstep : step s = .next t) : OutputsExtend s t := by
  obtain ⟨-, rfl⟩ | ⟨d, rest, -, rfl⟩ | ⟨item, rest, -, hexec⟩ := step_eq_next hstep
  · exact .refl _
  · exact .refl _
  · have hext : OutputsExtend { s with pending := rest } t := exec_outputsExtend hexec
    exact hext

/-- A reflexive and transitive relation that holds across every step holds across every run. -/
theorem runSteps_rel {R : State → State → Prop} (hrefl : ∀ s, R s s) (htrans : ∀ {s t u}, R s t → R t u → R s u)
    (hstep : ∀ {s t}, step s = .next t → R s t) {k : Nat} {s t : State} (hrun : runSteps k s = .next t) : R s t := by
  induction k generalizing s with
  | zero =>
    rw [runSteps_zero, Host.Outcome.next.injEq] at hrun
    exact hrun ▸ hrefl s
  | succ k ih =>
    rw [runSteps_succ, andThen_eq_next] at hrun
    obtain ⟨s₁, hfirst, hrest⟩ := hrun
    exact htrans (hstep hfirst) (ih hrest)

/-- Settles O21: every step extends the outputs, and extension is reflexive and transitive. -/
theorem outputsAreNeverWithdrawn : Obligations.OutputsAreNeverWithdrawn :=
  fun _ _ _ hrun => runSteps_rel OutputsExtend.refl OutputsExtend.trans step_outputsExtend hrun

end Sys2Proof.Machine
end

section
/-! Encoded data as its pairs (20_memory.md R33, 30_encoding.md R56): where each byte stands, and what the pairs decode to. -/

namespace Sys2Proof.Machine

@[simp] theorem pairsOf_bytesOfPairs (ps : List (Byte × Byte)) : pairsOf (bytesOfPairs ps) = ps := by
  induction ps with
  | nil => rfl
  | cons p ps ih => simp [pairsOf, ih]

/-- Pairs decode to the copies each means, in order (30_encoding.md R56, 41_decoder.md R90). -/
theorem rleDecode_bytesOfPairs (ps : List (Byte × Byte)) :
    rleDecode (bytesOfPairs ps) = .bytes (ps.flatMap fun p => pairMeaning p.1 p.2) := by
  induction ps with
  | nil => rfl
  | cons p ps ih => rw [bytesOfPairs_cons, rleDecode_cons, ih, joinResults, List.flatMap_cons]

/-- Pair `k` stands at `2k` and `2k + 1`, value first (20_memory.md R33). -/
theorem bytesOfPairs_getElem? {ps : List (Byte × Byte)} {k : Nat} {p : Byte × Byte} (hp : ps[k]? = some p) :
    (bytesOfPairs ps)[2 * k]? = some p.1 ∧ (bytesOfPairs ps)[2 * k + 1]? = some p.2 := by
  induction ps generalizing k with
  | nil => simp at hp
  | cons q ps ih =>
    cases k with
    | zero =>
      obtain rfl : q = p := by simpa using hp
      exact ⟨rfl, rfl⟩
    | succ k => simpa [Nat.mul_succ] using ih (by simpa using hp)

/-- Settles O50: `rleDecode_bytesOfPairs`, with a pair's meaning written out, and the layout of the pairs. -/
theorem decodeExpandsEachPair : Obligations.DecodeExpandsEachPair :=
  fun ps => ⟨rleDecode_bytesOfPairs ps, pairsOf_bytesOfPairs ps, fun _ _ hp => bytesOfPairs_getElem? hp⟩

/-- Data that decodes has even length (41_decoder.md R90). -/
theorem even_of_rleDecode_eq_bytes {e out : List Byte} (h : rleDecode e = .bytes out) : e.length % 2 = 0 := by
  induction e using pair_induction generalizing out with
  | nil => rfl
  | half v => cases h
  | pair v c e ih =>
    rw [rleDecode_cons] at h
    cases he : rleDecode e with
    | bytes out' =>
      have heven := ih he
      simp only [List.length_cons]
      omega
    | malformedInput => simp [he, joinResults] at h

/-- The output is as long as the counts say (42_codec_laws.md R117). -/
theorem length_of_rleDecode_eq_bytes {e out : List Byte} (h : rleDecode e = .bytes out) : out.length = countSum e := by
  rw [← bytesOfPairs_pairsOf e (even_of_rleDecode_eq_bytes h), rleDecode_bytesOfPairs, CodecResult.bytes.injEq] at h
  simp [← h, countSum, List.length_flatMap]

end Sys2Proof.Machine
end

section
/-! Bounds on the sizes of the two functions' outputs (20_memory.md R36). -/

namespace Sys2Proof.Machine

/-! ### encode -/

/-- A byte that joins the run emits nothing; one that closes it costs a count and a value (40_encoder.md R70). -/
theorem length_rleEncodeFrom_cons (val b : Byte) (len : Nat) (rest : List Byte) :
    (rleEncodeFrom val len (b :: rest)).length =
      if b = val ∧ len < 255 then (rleEncodeFrom val (len + 1) rest).length
      else (rleEncodeFrom b 1 rest).length + 2 := by
  rw [rleEncodeFrom, Config.cap]
  split
  · rfl
  · simp [closeRun]

theorem length_rleEncodeFrom_le (val : Byte) (len : Nat) (input : List Byte) :
    (rleEncodeFrom val len input).length ≤ 2 * input.length + 1 := by
  induction input generalizing val len with
  | nil => simp [rleEncodeFrom]
  | cons b rest ih =>
    rw [length_rleEncodeFrom_cons, List.length_cons]
    split
    · have hjoin := ih val (len + 1)
      omega
    · have hclose := ih b 1
      omega

/-- From a run of 1 the bound is reached exactly when every byte closes the run before it. -/
theorem length_rleEncodeFrom_one_eq_iff (val : Byte) (input : List Byte) :
    (rleEncodeFrom val 1 input).length = 2 * input.length + 1 ↔ (val :: input).IsChain (· ≠ ·) := by
  induction input generalizing val with
  | nil => simp [rleEncodeFrom]
  | cons b rest ih =>
    rw [List.isChain_cons_cons, ← ih b, length_rleEncodeFrom_cons, List.length_cons]
    by_cases hb : b = val
    · have hshort := length_rleEncodeFrom_le val (1 + 1) rest
      rw [if_pos ⟨hb, by omega⟩]
      constructor
      · intro hlen
        omega
      · rintro ⟨hne, -⟩
        exact absurd hb.symm hne
    · rw [if_neg fun hjoin => hb hjoin.left]
      have hne : val ≠ b := Ne.symm hb
      constructor
      · intro hlen
        exact ⟨hne, by omega⟩
      · rintro ⟨-, hlen⟩
        omega

/-- With the first value, already emitted, there is a pair for every 255 bytes or part of them. -/
theorem le_length_rleEncodeFrom {len : Nat} (hlen : len ≤ 255) (val : Byte) (input : List Byte) :
    2 * ((len + input.length + 254) / 255) ≤ (rleEncodeFrom val len input).length + 1 := by
  induction input generalizing val len with
  | nil =>
    simp only [rleEncodeFrom, List.length_cons, List.length_nil]
    omega
  | cons b rest ih =>
    rw [length_rleEncodeFrom_cons, List.length_cons]
    split
    · next hjoin =>
      have hrest := ih (len := len + 1) (by omega) val
      omega
    · have hrest := ih (len := 1) (by omega) b
      omega

/-- Equal bytes close a run only when it is full, so there are no more pairs than that. -/
theorem length_rleEncodeFrom_of_all_eq {len : Nat} (hpos : 1 ≤ len) (hlen : len ≤ 255) {val : Byte} {input : List Byte}
    (hall : ∀ b ∈ input, b = val) :
    (rleEncodeFrom val len input).length + 1 = 2 * ((len + input.length + 254) / 255) := by
  induction input generalizing len with
  | nil =>
    simp only [rleEncodeFrom, List.length_cons, List.length_nil]
    omega
  | cons b rest ih =>
    obtain ⟨rfl, hrest⟩ := List.forall_mem_cons.mp hall
    rw [length_rleEncodeFrom_cons, List.length_cons]
    by_cases hfull : len < 255
    · rw [if_pos ⟨rfl, hfull⟩, ih (by omega) (by omega) hrest]
      omega
    · have hclose := ih (len := 1) (by omega) (by omega) hrest
      rw [if_neg fun hjoin => hfull hjoin.right]
      omega

/-- The bounds of `encode`: its loop from a run of 1, after the first value. -/
theorem length_rleEncode_bounds (input : List Byte) :
    (rleEncode input).length ≤ 2 * input.length ∧
    ((rleEncode input).length = 2 * input.length ↔ input.IsChain (· ≠ ·)) ∧
    2 * ((input.length + 254) / 255) ≤ (rleEncode input).length ∧
    ((∃ v, ∀ b ∈ input, b = v) → (rleEncode input).length = 2 * ((input.length + 254) / 255)) := by
  cases input with
  | nil => simp [rleEncode]
  | cons b rest =>
    rw [← length_rleEncodeFrom_one_eq_iff, rleEncode, List.length_cons, List.length_cons]
    refine ⟨?_, ?_, ?_, ?_⟩
    · have hle := length_rleEncodeFrom_le b 1 rest
      omega
    · omega
    · have hge := le_length_rleEncodeFrom (len := 1) (by omega) b rest
      omega
    · rintro ⟨v, hall⟩
      obtain ⟨rfl, hrest⟩ := List.forall_mem_cons.mp hall
      have heq := length_rleEncodeFrom_of_all_eq (len := 1) (by omega) (by omega) hrest
      omega

/-! ### decode -/

theorem asCount_le (b : Byte) : asCount b ≤ 255 :=
  Nat.le_of_lt_succ b.isLt

theorem asCount_eq_max_iff (b : Byte) : asCount b = 255 ↔ b = 255 :=
  BitVec.toNat_inj (y := 255)

theorem asCount_eq_zero_iff (b : Byte) : asCount b = 0 ↔ b = 0 :=
  BitVec.toNat_inj (y := 0)

theorem sum_counts_le (ps : List (Byte × Byte)) : (ps.map fun p => asCount p.2).sum ≤ 255 * ps.length := by
  induction ps with
  | nil => simp
  | cons p ps ih =>
    have hp := asCount_le p.2
    simp only [List.map_cons, List.sum_cons, List.length_cons]
    omega

theorem sum_counts_eq_max_iff (ps : List (Byte × Byte)) :
    (ps.map fun p => asCount p.2).sum = 255 * ps.length ↔ ∀ p ∈ ps, p.2 = 255 := by
  induction ps with
  | nil => simp
  | cons p ps ih =>
    have hp := asCount_le p.2
    have hps := sum_counts_le ps
    rw [List.forall_mem_cons, ← ih, ← asCount_eq_max_iff, List.map_cons, List.sum_cons, List.length_cons]
    omega

theorem sum_counts_eq_zero_iff (ps : List (Byte × Byte)) :
    (ps.map fun p => asCount p.2).sum = 0 ↔ ∀ p ∈ ps, p.2 = 0 := by
  rw [List.sum_eq_zero_iff, List.forall_mem_map]
  exact forall₂_congr fun p _ => asCount_eq_zero_iff p.2

/-- Settles O49: `encode` by its loop, and `decode` by the sum of the counts over half as many pairs as there are bytes. -/
theorem outputSizeBounds : Obligations.OutputSizeBounds := by
  refine ⟨length_rleEncode_bounds, fun e out hdec => ?_⟩
  have hlen : e.length = 2 * (pairsOf e).length := by
    rw [← length_bytesOfPairs, bytesOfPairs_pairsOf e (even_of_rleDecode_eq_bytes hdec)]
  have hmax : 255 * e.length / 2 = 255 * (pairsOf e).length := by omega
  rw [hmax, length_of_rleDecode_eq_bytes hdec]
  exact ⟨sum_counts_le _, (sum_counts_eq_max_iff _).symm, (sum_counts_eq_zero_iff _).symm⟩

end Sys2Proof.Machine
end

section
/-! Items as bytes: the bytes of an instruction sequence read back (30_encoding.md R51 to R53, R56, R60). -/

namespace Sys2Proof.Machine

/-- The second byte of a command word is what its first leaves of the ten bits (log 4). -/
theorem toNat_highByte (w : CmdWord) : ((w.extractLsb' 8 2).setWidth 8).toNat = w.toNat / 256 := by
  simp only [BitVec.toNat_setWidth, BitVec.extractLsb'_toNat, Nat.shiftRight_eq_div_pow]
  have hw := w.isLt
  omega

/-- The two bytes of a command word hold the word. -/
theorem highByte_append_cmdData (w : CmdWord) :
    ((w.extractLsb' 8 2).setWidth 8 ++ cmdData w).setWidth 10 = w := by
  have hsplit : w.extractLsb' 8 2 ++ w.extractLsb' 0 8 = w := BitVec.extractLsb'_append_extractLsb'
  conv_rhs => rw [← hsplit]
  rw [BitVec.setWidth_append]
  simp [cmdData]

theorem decodeBytes_itemBytes_command (w : CmdWord) (rest : List Byte) :
    decodeBytes .ev (itemBytes (.command w) ++ rest) = .instr (decodeCommand w) rest := by
  have hhigh : ((w.extractLsb' 8 2).setWidth 8).toNat < 4 := by
    rw [toNat_highByte]
    have hw := w.isLt
    omega
  simp only [itemBytes, List.cons_append, List.nil_append, decodeBytes]
  rw [if_pos hhigh, highByte_append_cmdData]

/-- The bytes of an instruction's encoding are read as that instruction, whatever bytes come after them. -/
theorem decodeBytes_encodeBytes (i : Instr) (rest : List Byte) :
    decodeBytes (formatOf i) (encodeBytes i ++ rest) = .instr i rest := by
  have hcommand : ∀ w, encode i = .command w →
      decodeBytes .ev (encodeBytes i ++ rest) = .instr i rest := by
    intro w hw
    have hi : decodeCommand w = i := by rw [← decode_encode i, hw, decode]
    rw [encodeBytes, hw, decodeBytes_itemBytes_command, hi]
  cases i with
  | encByte b => exact hcommand _ rfl
  | encEnd => exact hcommand _ rfl
  | decByte b => exact hcommand _ rfl
  | decEnd => exact hcommand _ rfl
  | pair v c => rfl

/-- Where an instruction is read, the sequence is that instruction and the sequence of the bytes after it. -/
theorem decodeAll_succ {f : Format} {bs rest : List Byte} {i : Instr} (h : decodeBytes f bs = .instr i rest) (fuel : Nat) :
    decodeAll f (fuel + 1) bs = (decodeAll f fuel rest).map (i :: ·) := by
  cases bs with
  | nil => simp [decodeBytes] at h
  | cons b bs => simp [decodeAll, h]

/-- Settles O9, by induction on the sequence: the first instruction is read off the front of the bytes. -/
theorem byteStreamsDecodeBack : Obligations.ByteStreamsDecodeBack := by
  intro f is hformat
  induction is with
  | nil => rfl
  | cons i is ih =>
    obtain ⟨rfl, htail⟩ := List.forall_mem_cons.mp hformat
    have hfirst := decodeBytes_encodeBytes i (is.flatMap encodeBytes)
    rw [List.flatMap_cons, List.length_cons, decodeAll_succ hfirst, ih htail, Option.map_some]

/-- Settles O10, by the number of bytes: none, one, or the two that every item has. -/
theorem byteDecoderRejectsExactly : Obligations.ByteDecoderRejectsExactly := by
  intro bs
  match bs with
  | [] => simp [decodeBytes]
  | [b] => simp [decodeBytes]
  | lo :: hi :: rest =>
    by_cases hhi : hi.toNat < 4
    · simp [decodeBytes, hhi]
    · have hfour : 4 ≤ hi.toNat := Nat.le_of_not_lt hhi
      simp [decodeBytes, hhi, hfour]

end Sys2Proof.Machine
end

section
/-! Command words by their three fields: decoding, re-encoding and the rows of the table (30_encoding.md R50 to R53). -/

namespace Sys2Proof.Machine

/-- The word with these fields (30_encoding.md R50). -/
def wordOf (unit ended : BitVec 1) (data : Byte) : CmdWord := unit ++ ended ++ data

/-- Every word has its fields (30_encoding.md R51). -/
theorem exists_eq_wordOf (w : CmdWord) : ∃ u e d, w = wordOf u e d := by
  refine ⟨w.extractLsb' 9 1, w.extractLsb' 8 1, w.extractLsb' 0 8, ?_⟩
  have htop : w.extractLsb' 9 1 ++ w.extractLsb' 8 1 = w.extractLsb' 8 2 :=
    BitVec.extractLsb'_append_extractLsb'_eq_extractLsb' rfl
  have hall : w.extractLsb' 8 2 ++ w.extractLsb' 0 8 = w := BitVec.extractLsb'_append_extractLsb'
  rw [wordOf, htop, hall]

@[simp] theorem cmdUnit_wordOf (u e : BitVec 1) (d : Byte) :
    cmdUnit (wordOf u e d) = if u = 0 then .enc else .dec := by
  have hbit : (u ++ e ++ d).getLsbD 9 = u.getLsbD 0 := by
    rw [BitVec.getLsbD_append, BitVec.getLsbD_append]
    rfl
  change (if (u ++ e ++ d).getLsbD 9 then _ else _) = _
  rw [hbit]
  obtain rfl | rfl := u.eq_zero_or_eq_one <;> simp

@[simp] theorem cmdEnd_wordOf (u e : BitVec 1) (d : Byte) : cmdEnd (wordOf u e d) = decide (e ≠ 0) := by
  have hbit : (u ++ e ++ d).getLsbD 8 = e.getLsbD 0 := by
    rw [BitVec.getLsbD_append, BitVec.getLsbD_append]
    rfl
  change (u ++ e ++ d).getLsbD 8 = _
  rw [hbit]
  obtain rfl | rfl := e.eq_zero_or_eq_one <;> simp

@[simp] theorem cmdData_wordOf (u e : BitVec 1) (d : Byte) : cmdData (wordOf u e d) = d :=
  BitVec.extractLsb'_append_eq_right

theorem toNat_wordOf (u e : BitVec 1) (d : Byte) :
    (wordOf u e d).toNat = 512 * u.toNat + 256 * e.toNat + d.toNat := by
  have hue : (u ++ e).toNat = 2 * u.toNat + e.toNat := by
    rw [BitVec.toNat_append, ← Nat.shiftLeft_add_eq_or_of_lt e.isLt, Nat.shiftLeft_eq]
    omega
  rw [wordOf, BitVec.toNat_append, ← Nat.shiftLeft_add_eq_or_of_lt d.isLt, Nat.shiftLeft_eq, hue]
  omega

/-- Masking a word masks its fields. -/
theorem wordOf_and (u e u' e' : BitVec 1) (d d' : Byte) :
    wordOf u e d &&& wordOf u' e' d' = wordOf (u &&& u') (e &&& e') (d &&& d') := by
  change (u ++ e ++ d) &&& (u' ++ e' ++ d') = _
  rw [BitVec.and_append, BitVec.and_append]
  rfl

theorem wordOf_inj {u e u' e' : BitVec 1} {d d' : Byte} :
    wordOf u e d = wordOf u' e' d' ↔ u = u' ∧ e = e' ∧ d = d' := by
  refine ⟨fun h => ?_, by rintro ⟨rfl, rfl, rfl⟩; rfl⟩
  have hn := congrArg BitVec.toNat h
  rw [toNat_wordOf, toNat_wordOf] at hn
  refine ⟨?_, ?_, ?_⟩ <;> apply BitVec.eq_of_toNat_eq <;> omega

/-- Adding a byte to the word of a row fills its `data` field (30_encoding.md R52). -/
theorem wordOf_zero_add (u e : BitVec 1) (d : Byte) : wordOf u e 0 + dataField d = wordOf u e d := by
  have hzero : (0 : Byte).toNat = 0 := rfl
  apply BitVec.eq_of_toNat_eq
  rw [BitVec.toNat_add, toNat_wordOf, toNat_wordOf, dataField, BitVec.toNat_setWidth, hzero]
  omega

/-! ### The words of the commands (30_encoding.md R52, R53) -/

theorem encode_encByte (b : Byte) : encode (.encByte b) = .command (wordOf 0 0 b) :=
  congrArg Item.command (wordOf_zero_add 0 0 b)

theorem encode_encEnd : encode .encEnd = .command (wordOf 0 1 0) := rfl

theorem encode_decByte (b : Byte) : encode (.decByte b) = .command (wordOf 1 0 b) :=
  congrArg Item.command (wordOf_zero_add 1 0 b)

theorem encode_decEnd : encode .decEnd = .command (wordOf 1 1 0) := rfl

/-- The command a word's fields stand for (30_encoding.md R52). -/
theorem decode_wordOf (u e : BitVec 1) (d : Byte) :
    decode (.command (wordOf u e d)) =
      if u = 0 then (if e = 0 then .encByte d else .encEnd) else (if e = 0 then .decByte d else .decEnd) := by
  simp only [decode, decodeCommand, cmdUnit_wordOf, cmdEnd_wordOf, cmdData_wordOf]
  obtain rfl | rfl := u.eq_zero_or_eq_one <;> obtain rfl | rfl := e.eq_zero_or_eq_one <;> simp

/-- The word of a row with a byte added decodes by that row and that byte (30_encoding.md R52). -/
theorem decode_wordOf_zero_add (u e : BitVec 1) (d : Byte) :
    decode (.command (wordOf u e 0 + dataField d)) =
      if u = 0 then (if e = 0 then .encByte d else .encEnd) else (if e = 0 then .decByte d else .decEnd) := by
  rw [wordOf_zero_add, decode_wordOf]

/-- Re-encoding a word keeps its unit and its end, and clears the data of an END (30_encoding.md R53). -/
theorem encode_decode_wordOf (u e : BitVec 1) (d : Byte) :
    encode (decode (.command (wordOf u e d))) = .command (wordOf u e (if e = 0 then d else 0)) := by
  rw [decode_wordOf]
  obtain rfl | rfl := u.eq_zero_or_eq_one <;> obtain rfl | rfl := e.eq_zero_or_eq_one
  · exact encode_encByte d
  · exact encode_encEnd
  · exact encode_decByte d
  · exact encode_decEnd

/-- A row looks at the unit and the end, not at the data (30_encoding.md R52). -/
theorem wordOf_and_rowMask (u e : BitVec 1) (d : Byte) : wordOf u e d &&& 0x300 = wordOf u e 0 := by
  change wordOf u e d &&& wordOf 1 1 0 = _
  rw [wordOf_and]
  obtain rfl | rfl := u.eq_zero_or_eq_one <;> obtain rfl | rfl := e.eq_zero_or_eq_one <;> simp

/-- The words that meet a row have its unit and its end, and any data. -/
theorem and_rowMask_eq_iff {u e : BitVec 1} {w : CmdWord} :
    w &&& 0x300 = wordOf u e 0 ↔ w = wordOf u e (cmdData w) := by
  obtain ⟨u', e', d, rfl⟩ := exists_eq_wordOf w
  rw [wordOf_and_rowMask, cmdData_wordOf, wordOf_inj, wordOf_inj]
  simp

/-- The row a word meets decides its command (30_encoding.md R52). -/
theorem decode_of_and_rowMask {u e : BitVec 1} {w : CmdWord} (h : w &&& 0x300 = wordOf u e 0) :
    decode (.command w) =
      if u = 0 then (if e = 0 then .encByte (cmdData w) else .encEnd)
      else (if e = 0 then .decByte (cmdData w) else .decEnd) := by
  conv_lhs => rw [and_rowMask_eq_iff.mp h]
  exact decode_wordOf u e _

/-- The words that meet a row are the 256 from its match on (30_encoding.md R52). -/
theorem and_rowMask_eq_iff_range (u e : BitVec 1) (w : CmdWord) :
    w &&& 0x300 = wordOf u e 0 ↔ wordOf u e 0 ≤ w ∧ w ≤ wordOf u e 255 := by
  obtain ⟨u', e', d, rfl⟩ := exists_eq_wordOf w
  have hzero : (0 : Byte).toNat = 0 := rfl
  have hlast : (255 : Byte).toNat = 255 := rfl
  rw [wordOf_and_rowMask, ← BitVec.toNat_inj, BitVec.le_def, BitVec.le_def]
  simp only [toNat_wordOf, hzero, hlast]
  omega

/-- A word meets the row whose unit and end are its own, and no other (30_encoding.md R52). -/
theorem mnemonics_of_matching_rows (w : CmdWord) :
    (commandRows.filter fun r => rowMatches r w).map Row.mnemonic = [mnemonicOf (decode (.command w))] := by
  have hmask : ∀ r ∈ commandRows, r.mask = 0x300 := by decide
  obtain ⟨u, e, d, rfl⟩ := exists_eq_wordOf w
  have hrows : (commandRows.filter fun r => rowMatches r (wordOf u e d)) =
      commandRows.filter fun r => wordOf u e 0 == r.value :=
    List.filter_congr fun r hr => by rw [rowMatches, hmask r hr, wordOf_and_rowMask]
  rw [hrows, decode_wordOf]
  obtain rfl | rfl := u.eq_zero_or_eq_one <;> obtain rfl | rfl := e.eq_zero_or_eq_one <;> rfl

/-- Settles O6: every word has its fields, and the unit and the end among them name its row. -/
theorem commandWordsDecodeByTheirFields : Obligations.CommandWordsDecodeByTheirFields := by
  refine ⟨decode_wordOf, fun w => ⟨?_, ?_, ?_, ?_, mnemonics_of_matching_rows w, ?_, ?_, ?_, ?_⟩, fun b => ⟨rfl, rfl⟩⟩
  · exact decode_of_and_rowMask (u := 0) (e := 0)
  · exact decode_of_and_rowMask (u := 0) (e := 1)
  · exact decode_of_and_rowMask (u := 1) (e := 0)
  · exact decode_of_and_rowMask (u := 1) (e := 1)
  · exact (and_rowMask_eq_iff_range 0 0 w).trans (and_iff_right (Nat.zero_le w.toNat))
  · exact and_rowMask_eq_iff_range 0 1 w
  · exact and_rowMask_eq_iff_range 1 0 w
  · exact (and_rowMask_eq_iff_range 1 1 w).trans (and_iff_left (Nat.le_of_lt_succ w.isLt))

theorem wordOf_and_endBit (u e : BitVec 1) (d : Byte) : wordOf u e d &&& 0x100 = 0 ↔ e = 0 := by
  change wordOf u e d &&& wordOf 0 1 0 = wordOf 0 0 0 ↔ _
  rw [wordOf_and, wordOf_inj]
  obtain rfl | rfl := e.eq_zero_or_eq_one <;> simp

theorem wordOf_and_dataBits (u e : BitVec 1) (d : Byte) : wordOf u e d &&& 0x0FF = 0 ↔ d = 0 := by
  change wordOf u e d &&& wordOf 0 0 (BitVec.allOnes 8) = wordOf 0 0 0 ↔ _
  rw [wordOf_and, wordOf_inj, BitVec.and_allOnes]
  simp

/-- Settles O7: re-encoding keeps the fields of a word but for the data of an END, so it gives back the words that have no end bit
or no data. -/
theorem reencodingGivesTheCanonicalWord : Obligations.ReencodingGivesTheCanonicalWord := by
  refine ⟨fun d => ⟨decode_wordOf_zero_add 0 1 d, decode_wordOf_zero_add 1 1 d⟩, rfl, rfl, fun w => ?_, decode_encode⟩
  obtain ⟨u, e, d, rfl⟩ := exists_eq_wordOf w
  rw [encode_decode_wordOf, Item.command.injEq, wordOf_inj, wordOf_and_endBit, wordOf_and_dataBits]
  obtain rfl | rfl := e.eq_zero_or_eq_one <;> simp [eq_comm (b := d)]

/-- Settles O8: each word is taken apart into its fields, and the pair is its two bytes. -/
theorem sampleWordsDecode : Obligations.SampleWordsDecode :=
  ⟨decode_wordOf 0 0 0x41, decode_wordOf 0 0 255, decode_wordOf 0 1 0, decode_wordOf 0 1 255, decode_wordOf 1 0 0,
    decode_wordOf 1 0 255, decode_wordOf 1 1 0, decode_wordOf 1 1 0xA5, decodeBytes_encodeBytes (.pair 0x41 3) []⟩

end Sys2Proof.Machine
end

section
/-! The pair as an action (30_encoding.md R56, R62), and the events of trace lines (R61, R62). -/

namespace Sys2Proof.Machine

/-- A value is held until its count comes (41_decoder.md R91). -/
theorem decByteStep_of_val {s : State} (b : Byte) (h : s.dec.st = .val) :
    decByteStep b s = { s with dec := ⟨.cnt, b⟩, decStatus := some .ok } := by
  simp [decByteStep, h, setDec, reportDec, decStatusOf]

/-- A count emits its copies of the held value (41_decoder.md R91, R94). -/
theorem decByteStep_of_cnt {s : State} (b : Byte) (h : s.dec.st = .cnt) :
    decByteStep b s =
      { s with dec := ⟨.val, s.dec.val⟩, decOut := s.decOut ++ List.replicate b.toNat s.dec.val,
               decStatus := some .ok } := by
  simp [decByteStep, h, setDec, emitDec, reportDec, decStatusOf, pairMeaning, rep, asCount]

/-- In ERR a byte only has its error reported again (41_decoder.md R91). -/
theorem decByteStep_of_err {s : State} (b : Byte) (h : s.dec.st = .err) :
    decByteStep b s = { s with decStatus := some .malformedInput } := by
  simp [decByteStep, h, reportDec, decStatusOf]

/-- Settles O16: a pair is two `DEC.BYTE` steps (log 1), the second from the state the first leads to (log 2). -/
theorem pairResult : Obligations.PairResult := by
  intro v c s
  rw [exec_pair]
  refine ⟨fun hval => ?_, fun hcnt => ?_, fun herr => ?_⟩
  · rw [decByteStep_of_val v hval, decByteStep_of_cnt c rfl]
  · rw [decByteStep_of_cnt v hcnt, decByteStep_of_val c rfl]
  · rw [decByteStep_of_err v herr, decByteStep_of_err c]
    exact herr

/-- Settles O39: both sides run two `DEC.BYTE` in a row, one inside a step and one over two steps (log 1). -/
theorem pairIsItsTwoBytes : Obligations.PairIsItsTwoBytes := by
  intro v c s
  have hline : lineEvents (.decPair v c) = [presents (.decByte v)] ++ [presents (.decByte c)] := rfl
  rw [hline, runEvents_append, runEvents_presents, runEvents_presents, exec_pair, exec_decByte, andThen_next,
    runEvents_presents, exec_decByte]

@[simp] theorem programEvents_append (ls ms : List TraceLine) :
    programEvents (ls ++ ms) = programEvents ls ++ programEvents ms :=
  List.flatMap_append

/-- Lines that each present one instruction present those instructions in order. -/
theorem programEvents_map {α : Type} {line : α → TraceLine} {instr : α → Instr}
    (h : ∀ a, lineEvents (line a) = [presents (instr a)]) (as : List α) :
    programEvents (as.map line) = as.map fun a => presents (instr a) := by
  rw [programEvents, List.flatMap_map, List.map_eq_flatMap]
  exact congrArg as.flatMap (funext h)

/-- Settles O54: a stream presents its bytes and then its END, and a run is as many equal bytes. -/
theorem pseudoCommandsExpand : Obligations.PseudoCommandsExpand := by
  refine ⟨fun bs => ⟨?_, ?_⟩, fun v c => rfl, fun v n => ?_, fun v => rfl, fun v c d => ?_⟩
  · rw [programEvents_append, programEvents_map (instr := .encByte) fun _ => rfl]
    rfl
  · rw [programEvents_append, programEvents_map (instr := .decByte) fun _ => rfl]
    rfl
  · have hlines : List.replicate n (TraceLine.encByte v) = (List.replicate n v).map .encByte :=
      List.map_replicate.symm
    rw [hlines, programEvents_map (instr := .encByte) fun _ => rfl, List.map_replicate]
    rfl
  · simp [lineValidIn]

end Sys2Proof.Machine
end

section
/-! Trace lines written and read back (30_encoding.md R61, R62). -/

namespace Sys2Proof.Machine

/-! ### Bytes -/

theorem hexDigit_hexChar {n : Nat} (hn : n < 16) : hexDigit (hexChar n) = some n := by
  interval_cases n <;> rfl

/-- The two digits of a byte are read as the byte. -/
theorem readByte_writeByte (b : Byte) : readByte (writeByte b) = some b := by
  have hb := b.isLt
  have hhigh : hexDigit (hexChar (b.toNat / 16)) = some (b.toNat / 16) := hexDigit_hexChar (by omega)
  have hlow : hexDigit (hexChar (b.toNat % 16)) = some (b.toNat % 16) := hexDigit_hexChar (by omega)
  have hdigits : readDigits 16 hexDigit 0 [hexChar (b.toNat / 16), hexChar (b.toNat % 16)] = some b.toNat := by
    simp only [readDigits, hhigh, hlow]
    congr 1
    omega
  have hrange : b.toNat ≤ 255 := by omega
  simp only [readByte, writeByte, hdigits, if_pos hrange, BitVec.ofNat_toNat, BitVec.setWidth_eq]

/-! ### Tokens -/

/-- The character neither ends the token it stands after nor is a token of its own (30_encoding.md R61). -/
def isTokenChar (c : Char) : Bool := !([';', ' ', '\t', '\r', ',', '[', ']'].contains c)

theorem isTokenChar_hexChar {n : Nat} (hn : n < 16) : isTokenChar (hexChar n) = true := by
  interval_cases n <;> rfl

theorem all_isTokenChar_writeByte (b : Byte) : (writeByte b).all isTokenChar = true := by
  have hb := b.isLt
  have hhigh : isTokenChar (hexChar (b.toNat / 16)) = true := isTokenChar_hexChar (by omega)
  have hlow : isTokenChar (hexChar (b.toNat % 16)) = true := isTokenChar_hexChar (by omega)
  have hstart : ['0', 'x'].all isTokenChar = true := rfl
  simpa [writeByte, hhigh, hlow] using hstart

theorem tokensFrom_cons_of_isTokenChar {c : Char} (hc : isTokenChar c = true) (cur cs : List Char) :
    tokensFrom cur (c :: cs) = tokensFrom (cur ++ [c]) cs := by
  obtain ⟨hcomment, hblank, hsign⟩ :
      c ≠ ';' ∧ ¬ (c = ' ' ∨ c = '\t' ∨ c = '\r') ∧ ¬ (c = ',' ∨ c = '[' ∨ c = ']') := by
    simpa [isTokenChar, and_assoc] using hc
  rw [tokensFrom, if_neg hcomment, if_neg hblank, if_neg hsign]

/-- The characters of a token are gathered. -/
theorem tokensFrom_append {w : List Char} (hw : w.all isTokenChar = true) (cur cs : List Char) :
    tokensFrom cur (w ++ cs) = tokensFrom (cur ++ w) cs := by
  induction w generalizing cur with
  | nil => simp
  | cons c w ih =>
    rw [List.all_cons, Bool.and_eq_true] at hw
    obtain ⟨hc, hw⟩ := hw
    rw [List.cons_append, tokensFrom_cons_of_isTokenChar hc, ih hw, List.append_assoc, List.singleton_append]

theorem tokensFrom_token {w : List Char} (hw : w.all isTokenChar = true) : tokensFrom [] w = flushToken w := by
  simpa [tokensFrom] using tokensFrom_append hw [] []

theorem tokensFrom_token_blank {w : List Char} (hw : w.all isTokenChar = true) (cs : List Char) :
    tokensFrom [] (w ++ ' ' :: cs) = flushToken w ++ tokensFrom [] cs :=
  tokensFrom_append hw [] (' ' :: cs)

theorem tokensFrom_token_comma {w : List Char} (hw : w.all isTokenChar = true) (cs : List Char) :
    tokensFrom [] (w ++ ',' :: cs) = flushToken w ++ [','] :: tokensFrom [] cs :=
  tokensFrom_append hw [] (',' :: cs)

@[simp] theorem flushToken_writeByte (b : Byte) : flushToken (writeByte b) = [writeByte b] := rfl

/-- A mnemonic and one byte. -/
theorem tokens_byte {m : List Char} (hm : m.all isTokenChar = true) (b : Byte) :
    tokens (m ++ ' ' :: writeByte b) = flushToken m ++ [writeByte b] := by
  rw [tokens, tokensFrom_token_blank hm, tokensFrom_token (all_isTokenChar_writeByte _), flushToken_writeByte]

/-- A mnemonic and two bytes, a comma between them. -/
theorem tokens_byte_byte {m : List Char} (hm : m.all isTokenChar = true) (v c : Byte) :
    tokens (m ++ ' ' :: (writeByte v ++ ',' :: ' ' :: writeByte c)) =
      flushToken m ++ [writeByte v, [','], writeByte c] := by
  have hblank : tokensFrom [] (' ' :: writeByte c) = tokensFrom [] (writeByte c) := rfl
  rw [tokens, tokensFrom_token_blank hm, tokensFrom_token_comma (all_isTokenChar_writeByte _), hblank,
    tokensFrom_token (all_isTokenChar_writeByte _), flushToken_writeByte, flushToken_writeByte, List.singleton_append]

/-! ### Lines -/

/-- A line is read by its mnemonic and operands. -/
theorem readLine_of_tokens {cs m : List Char} {args : List (List Char)} {l : TraceLine}
    (htokens : tokens cs = m :: args) (hoperands : readOperands m args = some l) (hwf : l.wf = true) :
    readLine cs = .line l := by
  simp only [readLine, htokens, hoperands, hwf, if_true]

/-- Settles O53: the written line has the tokens of the instruction's mnemonic and operands, and a written byte is read as
itself. -/
theorem notationReadsBack : Obligations.NotationReadsBack := by
  intro i
  cases i with
  | encByte b =>
    refine readLine_of_tokens (tokens_byte (m := ['E', 'N', 'C', '.', 'B', 'Y', 'T', 'E']) rfl b) ?_ rfl
    exact congrArg (Option.map TraceLine.encByte) (readByte_writeByte b)
  | encEnd => rfl
  | decByte b =>
    refine readLine_of_tokens (tokens_byte (m := ['D', 'E', 'C', '.', 'B', 'Y', 'T', 'E']) rfl b) ?_ rfl
    exact congrArg (Option.map TraceLine.decByte) (readByte_writeByte b)
  | decEnd => rfl
  | pair v c =>
    refine readLine_of_tokens (tokens_byte_byte (m := ['D', 'E', 'C', '.', 'P', 'A', 'I', 'R']) rfl v c) ?_ rfl
    simp [readOperands, readByte_writeByte, lineOf]

end Sys2Proof.Machine
end

section
/-! The two ENC commands on the machine, case by case (40_encoder.md R71, R72, R74). -/

namespace Sys2Proof.Machine

/-- The first byte of a stream starts a run and is emitted as its value (40_encoder.md R71). -/
theorem encEffect_encByte_of_idle {s : State} (b : Byte) (hidle : s.enc.st = .idle) :
    encEffect (.encByte b) s =
      { s with enc := ⟨.run, b, 1⟩, encOut := s.encOut ++ [b], encStatus := some .ok } := by
  simp [encEffect, encRegsAfter, encBytesOut, encByteRegs, encByteEmits, hidle, startRun, setEnc, emitEnc, reportEnc]

/-- A byte that continues the run is counted, and nothing is emitted (40_encoder.md R71). -/
theorem encEffect_encByte_of_continues {s : State} {b : Byte} (hrun : s.enc.st = .run)
    (hcont : runContinues s.enc b = true) :
    encEffect (.encByte b) s =
      { s with enc := ⟨.run, s.enc.val, s.enc.len + 1⟩, encStatus := some .ok } := by
  simp [encEffect, encRegsAfter, encBytesOut, encByteRegs, encByteEmits, hrun, hcont, continueRun, setEnc, emitEnc,
    reportEnc]

/-- A byte that does not continue the run closes it with its count, and starts the next (40_encoder.md R71). -/
theorem encEffect_encByte_of_closes {s : State} {b : Byte} (hrun : s.enc.st = .run)
    (hcloses : ¬ runContinues s.enc b = true) :
    encEffect (.encByte b) s =
      { s with enc := ⟨.run, b, 1⟩, encOut := s.encOut ++ [s.enc.len, b], encStatus := some .ok } := by
  simp [encEffect, encRegsAfter, encBytesOut, encByteRegs, encByteEmits, hrun, hcloses, startRun, closeRun, setEnc,
    emitEnc, reportEnc]

/-- `ENC.END` closes the open run with its count (40_encoder.md R72). -/
theorem encEffect_encEnd_of_run {s : State} (hrun : s.enc.st = .run) :
    encEffect .encEnd s =
      { s with enc := ⟨.idle, 0, 0⟩, encOut := s.encOut ++ [s.enc.len], encStatus := some .ok } := by
  simp [encEffect, encRegsAfter, encBytesOut, encEndEmits, hrun, encReset, setEnc, emitEnc, reportEnc]

/-- With no run open `ENC.END` emits nothing (40_encoder.md R72). -/
theorem encEffect_encEnd_of_idle {s : State} (hidle : s.enc.st = .idle) :
    encEffect .encEnd s = { s with enc := ⟨.idle, 0, 0⟩, encStatus := some .ok } := by
  simp [encEffect, encRegsAfter, encBytesOut, encEndEmits, hidle, encReset, setEnc, emitEnc, reportEnc]

/-- The run is closed by another value, or by any byte once it is full (40_encoder.md R71, R74). -/
theorem not_runContinues_iff (u : EncUnit) (b : Byte) :
    ¬ runContinues u b = true ↔ b ≠ u.val ∨ u.len = 255 := by
  have hfull : ¬ u.len.toNat < 255 ↔ u.len = 255 := by bv_omega
  rw [runContinues_iff, not_and_or, hfull]

/-- Settles O11: on a legal pattern `ENC.BYTE` answers its effect, whose three cases are those of R71. -/
theorem encByteResult : Obligations.EncByteResult := by
  intro b s hlegal
  rw [exec_of_isEncInstr_of_legal rfl hlegal]
  refine ⟨rfl, fun hidle => ?_, fun hrun hval hlen => ?_, fun hrun hcloses => ?_⟩
  · rw [encEffect_encByte_of_idle b hidle]
  · have hcont : runContinues s.enc b = true := (runContinues_iff s.enc b).mpr ⟨hval, hlen⟩
    rw [encEffect_encByte_of_continues hrun hcont]
    exact ⟨rfl, continueRun_len hcont⟩
  · rw [encEffect_encByte_of_closes hrun ((not_runContinues_iff s.enc b).mpr hcloses)]

/-- Settles O12: on a legal pattern `ENC.END` answers its effect; a legal run has a length of at least 1, and the legal pattern
in IDLE is the reset state (10_state.md R14). -/
theorem encEndResult : Obligations.EncEndResult := by
  intro s hlegal
  rw [exec_of_isEncInstr_of_legal rfl hlegal]
  refine ⟨⟨rfl, fun d => decode_wordOf_zero_add 0 1 d⟩, fun hrun => ?_, fun hidle => ?_⟩
  · have hlen : s.enc.len ≠ 0 := encLegal_run hlegal hrun
    rw [encEffect_encEnd_of_run hrun]
    exact ⟨rfl, by bv_omega⟩
  · rw [encEffect_encEnd_of_idle hidle]
    exact ⟨rfl, encLegal_idle hlegal hidle⟩

end Sys2Proof.Machine
end

section
/-! `encode` by the maximal runs of its input (40_encoder.md R73, R80): the pairs of a run, the runs of the input, and the loop of
R70 taken from the run it is in. -/

namespace Sys2Proof.Machine

/-! ### The pairs of one run -/

/-- The pairs of a run with the cap as the number it is (40_encoder.md R73). -/
theorem runPairs_eq (v : Byte) (n : Nat) :
    runPairs v n = List.replicate (n / 255) (v, 255) ++ if n % 255 = 0 then [] else [(v, countByte (n % 255))] := rfl

theorem length_runPairs (v : Byte) (n : Nat) : (runPairs v n).length = (n + 254) / 255 := by
  rw [runPairs_eq, List.length_append, List.length_replicate]
  split
  · rw [List.length_nil]
    omega
  · rw [List.length_singleton]
    omega

/-- The full pairs and the remainder of a run have its value and a count that is not 0 (40_encoder.md R73). -/
theorem value_and_count_of_mem_runPairs {v : Byte} {n : Nat} {p : Byte × Byte} (hp : p ∈ runPairs v n) :
    p.1 = v ∧ 1 ≤ p.2.toNat := by
  rw [runPairs_eq, List.mem_append] at hp
  rcases hp with hfull | hrest
  · obtain rfl := List.eq_of_mem_replicate hfull
    exact ⟨rfl, Nat.one_le_ofNat⟩
  · split at hrest
    · simp at hrest
    · obtain rfl := List.mem_singleton.mp hrest
      refine ⟨rfl, ?_⟩
      rw [toNat_countByte (by omega)]
      omega

/-- A pair that is not the last of its run is full (40_encoder.md R73). -/
theorem isChain_runPairs (v : Byte) (n : Nat) : (runPairs v n).IsChain fun p q => p.1 = q.1 → p.2 = 255 := by
  refine List.isChain_append.mpr ⟨List.isChain_replicate_of_rel _ fun _ => rfl, ?_, fun p hp q _ _ => ?_⟩
  · split <;> simp
  · obtain rfl := List.eq_of_mem_replicate (List.mem_of_getLast? hp)
    rfl

/-- The pairs of a run mean the run. -/
theorem flatMap_pairMeaning_runPairs (v : Byte) (n : Nat) :
    (runPairs v n).flatMap (fun p => pairMeaning p.1 p.2) = rep n v := by
  induction n using Nat.strong_induction_on with
  | _ n ih =>
    rcases Nat.eq_zero_or_pos n with rfl | hpos
    · rfl
    · by_cases hle : n ≤ 255
      · rw [runPairs_of_le v hpos hle, List.flatMap_singleton, pairMeaning, asCount, toNat_countByte hle]
      · obtain ⟨m, rfl⟩ : ∃ m, n = m + 255 := ⟨n - 255, by omega⟩
        rw [runPairs_add, List.flatMap_cons, ih m (by omega), Nat.add_comm m]
        exact List.replicate_append_replicate

/-! ### The maximal runs of the input -/

/-- The bytes of runs with one more byte before them. -/
theorem flatMap_rep_consRun (b : Byte) (rs : List (Byte × Nat)) :
    (consRun b rs).flatMap (fun r => rep r.2 r.1) = b :: rs.flatMap fun r => rep r.2 r.1 := by
  match rs with
  | [] => rfl
  | (v, n) :: rs =>
    rw [consRun]
    split
    · next hb =>
      subst hb
      rfl
    · rfl

/-- The maximal runs spell the input (40_encoder.md R73). -/
theorem flatMap_rep_maximalRuns (input : List Byte) :
    (maximalRuns input).flatMap (fun r => rep r.2 r.1) = input := by
  induction input with
  | nil => rfl
  | cons b rest ih => rw [maximalRuns, flatMap_rep_consRun, ih]

theorem pos_of_mem_maximalRuns {input : List Byte} : ∀ r ∈ maximalRuns input, 1 ≤ r.2 := by
  cases input with
  | nil => simp [maximalRuns]
  | cons b rest =>
    obtain ⟨m, rs, hruns, hpos, -⟩ := maximalRuns_cons b rest
    rw [hruns]
    exact hpos

/-- Neighbouring runs differ in value, so the runs are maximal (00_scope.md R8). -/
theorem isChain_maximalRuns (input : List Byte) : (maximalRuns input).IsChain fun r q => r.1 ≠ q.1 := by
  cases input with
  | nil => simp [maximalRuns]
  | cons b rest =>
    obtain ⟨m, rs, hruns, -, hchain⟩ := maximalRuns_cons b rest
    rw [hruns]
    exact hchain

/-! ### The encoding as pairs -/

/-- The pairs of the input's maximal runs, from the left (40_encoder.md R73). -/
def encodedPairs (input : List Byte) : List (Byte × Byte) :=
  (maximalRuns input).flatMap fun r => runPairs r.1 r.2

/-- An open run that another value closes is one pair. -/
theorem encodedPairs_replicate_cons_of_ne {v b : Byte} {len : Nat} (hpos : 1 ≤ len) (hle : len ≤ 255) (hb : b ≠ v)
    (rest : List Byte) :
    encodedPairs (List.replicate len v ++ b :: rest) = (v, countByte len) :: encodedPairs (b :: rest) := by
  have hother : ∀ m rs, maximalRuns (b :: rest) ≠ (v, m) :: rs := by
    intro m rs hruns
    obtain ⟨m', rs', hruns', -, -⟩ := maximalRuns_cons b rest
    rw [hruns', List.cons.injEq, Prod.mk.injEq] at hruns
    exact hb hruns.left.left
  obtain ⟨k, rfl⟩ : ∃ k, len = k + 1 := ⟨len - 1, by omega⟩
  rw [encodedPairs, maximalRuns_replicate_other hother, List.flatMap_cons, runPairs_of_le v hpos hle]
  rfl

/-- An open run that is full is one pair, and the next byte of its value starts another. -/
theorem encodedPairs_replicate_cap (v : Byte) (rest : List Byte) :
    encodedPairs (List.replicate 255 v ++ v :: rest) = (v, countByte 255) :: encodedPairs (v :: rest) := by
  obtain ⟨m, rs, hruns, -, -⟩ := maximalRuns_cons v rest
  rw [encodedPairs, maximalRuns_replicate_same hruns, List.flatMap_cons, runPairs_add, encodedPairs, hruns]
  rfl

/-- The loop of R70 in a run of `len` bytes `v`, with the value already emitted before it, encodes that run and the rest. -/
theorem cons_rleEncodeFrom {len : Nat} (hpos : 1 ≤ len) (hle : len ≤ 255) (v : Byte) (rest : List Byte) :
    v :: rleEncodeFrom v len rest = bytesOfPairs (encodedPairs (List.replicate len v ++ rest)) := by
  induction rest generalizing v len with
  | nil =>
    have hruns : maximalRuns (List.replicate (len - 1 + 1) v ++ []) = [(v, len - 1 + 1)] :=
      maximalRuns_replicate_other (by simp [maximalRuns]) (len - 1)
    rw [Nat.sub_add_cancel hpos] at hruns
    rw [encodedPairs, hruns, List.flatMap_singleton, runPairs_of_le v hpos hle]
    rfl
  | cons b rest ih =>
    have hnext : b :: rleEncodeFrom b 1 rest = bytesOfPairs (encodedPairs (b :: rest)) :=
      ih (Nat.le_refl 1) (by omega) b
    rw [rleEncodeFrom, Config.cap]
    split
    · next hjoin =>
      obtain ⟨rfl, hlt⟩ := hjoin
      rw [ih (by omega) hlt, List.replicate_succ', List.append_assoc, List.singleton_append]
    · next hclose =>
      rw [closeRun, List.cons_append, List.singleton_append, hnext]
      by_cases hb : b = v
      · subst hb
        obtain rfl : len = 255 := by
          have hfull : ¬ len < 255 := fun hlt => hclose ⟨rfl, hlt⟩
          omega
        rw [encodedPairs_replicate_cap, bytesOfPairs_cons]
      · rw [encodedPairs_replicate_cons_of_ne hpos hle hb, bytesOfPairs_cons]

theorem rleEncode_eq_bytesOfPairs (input : List Byte) : rleEncode input = bytesOfPairs (encodedPairs input) := by
  cases input with
  | nil => rfl
  | cons b rest => exact cons_rleEncodeFrom (Nat.le_refl 1) (by omega) b rest

/-- Settles O44: the loop encodes run by run, and the runs are the maximal ones. -/
theorem encodeIsRunByRun : Obligations.EncodeIsRunByRun :=
  ⟨fun input => ⟨rleEncode_eq_bytesOfPairs input, flatMap_rep_maximalRuns input, pos_of_mem_maximalRuns,
    isChain_maximalRuns input⟩, fun v n _ => ⟨length_runPairs v n, runPairs_eq v n⟩⟩

/-! ### The shape of the encoding -/

@[simp] theorem pairsOf_rleEncode (input : List Byte) : pairsOf (rleEncode input) = encodedPairs input := by
  rw [rleEncode_eq_bytesOfPairs, pairsOf_bytesOfPairs]

theorem even_length_rleEncode (input : List Byte) : (rleEncode input).length % 2 = 0 := by
  rw [rleEncode_eq_bytesOfPairs, length_bytesOfPairs, Nat.mul_mod_right]

/-- The pairs mean the runs, and the runs spell the input (42_codec_laws.md R110). -/
theorem rleDecode_rleEncode (input : List Byte) : rleDecode (rleEncode input) = .bytes input := by
  rw [rleEncode_eq_bytesOfPairs, rleDecode_bytesOfPairs, encodedPairs, List.flatMap_assoc]
  simp only [flatMap_pairMeaning_runPairs, flatMap_rep_maximalRuns]

theorem count_pos_of_mem_encodedPairs {input : List Byte} {p : Byte × Byte} (hp : p ∈ encodedPairs input) :
    1 ≤ p.2.toNat := by
  obtain ⟨r, -, hpr⟩ := List.mem_flatMap.mp hp
  exact (value_and_count_of_mem_runPairs hpr).right

theorem length_encodedPairs (input : List Byte) :
    (encodedPairs input).length = ((maximalRuns input).map fun r => (r.2 + 254) / 255).sum := by
  simp only [encodedPairs, List.length_flatMap, length_runPairs]

/-- Pairs of one run have the same value, and all but the last are full; pairs of neighbouring runs differ in value. -/
theorem isChain_encodedPairs (input : List Byte) :
    (encodedPairs input).IsChain fun p q => p.1 = q.1 → p.2 = 255 := by
  have hnonempty : [] ∉ (maximalRuns input).map fun r => runPairs r.1 r.2 := by
    intro hmem
    obtain ⟨r, hr, hnil⟩ := List.mem_map.mp hmem
    have hpos := pos_of_mem_maximalRuns r hr
    have hlen := length_runPairs r.1 r.2
    rw [hnil, List.length_nil] at hlen
    omega
  rw [encodedPairs, List.flatMap_def, List.isChain_flatten hnonempty, List.isChain_map]
  constructor
  · intro ps hps
    obtain ⟨r, -, rfl⟩ := List.mem_map.mp hps
    exact isChain_runPairs r.1 r.2
  · refine (isChain_maximalRuns input).imp fun r q hne p hp p' hp' hsame => ?_
    obtain ⟨hvalue, -⟩ := value_and_count_of_mem_runPairs (List.mem_of_getLast? hp)
    obtain ⟨hvalue', -⟩ := value_and_count_of_mem_runPairs (List.mem_of_head? hp')
    exact absurd (hvalue.symm.trans (hsame.trans hvalue')) hne

/-- Settles O45: the pairs of the encoding are `encodedPairs`, and the counts sum to the length of what they decode to. -/
theorem encodeShape : Obligations.EncodeShape := by
  intro input
  refine ⟨even_length_rleEncode input, ?_, (length_of_rleDecode_eq_bytes (rleDecode_rleEncode input)).symm, ?_, ?_⟩
  · rw [pairsOf_rleEncode]
    exact fun p hp => ⟨count_pos_of_mem_encodedPairs hp, asCount_le p.2⟩
  · rw [pairsOf_rleEncode, length_encodedPairs]
  · rw [pairsOf_rleEncode]
    exact isChain_encodedPairs input

end Sys2Proof.Machine
end

section
/-! The ENC unit against `encode`: runs of its commands, the output of a stream (40_encoder.md R78), and the registers after any
raw bytes (R77). -/

namespace Sys2Proof.Machine

/-! ### Runs of ENC commands -/

/-- ENC commands as they change the machine, one after the other. -/
def encEffects (is : List Instr) (s : State) : State := is.foldl (fun s i => encEffect i s) s

@[simp] theorem encEffects_nil (s : State) : encEffects [] s = s := rfl

@[simp] theorem encEffects_cons (i : Instr) (is : List Instr) (s : State) :
    encEffects (i :: is) s = encEffects is (encEffect i s) := rfl

@[simp] theorem encEffects_concat (is : List Instr) (i : Instr) (s : State) :
    encEffects (is ++ [i]) s = encEffect i (encEffects is s) :=
  List.foldl_concat ..

/-- ENC commands presented from a legal pattern run as their effects. -/
theorem runEvents_map_presents {is : List Instr} (henc : ∀ i ∈ is, isEncInstr i = true) {s : State}
    (hlegal : encLegal s.enc = true) : runEvents (is.map presents) s = .next (encEffects is s) := by
  induction is generalizing s with
  | nil => rfl
  | cons i is ih =>
    obtain ⟨hi, hrest⟩ := List.forall_mem_cons.mp henc
    have hlegal' : encLegal (encEffect i s).enc = true := encLegal_encRegsAfter hlegal
    rw [List.map_cons, runEvents_cons, handle_presents i s (decode_encode i), exec_of_isEncInstr_of_legal hi hlegal,
      andThen_next, ih hrest hlegal', encEffects_cons]

/-- The status after a run of ENC commands is that of the last (40_encoder.md R75). -/
theorem encStatus_encEffects {is : List Instr} (hne : is ≠ []) (s : State) :
    (encEffects is s).encStatus = some .ok := by
  obtain rfl | ⟨is, i, rfl⟩ := List.eq_nil_or_concat' is
  · exact absurd rfl hne
  · rw [encEffects_concat, encEffect_encStatus]

/-! ### The output of a stream -/

/-- The commands of a stream (30_encoding.md R62). -/
def encCommands (input : List Byte) : List Instr := input.map .encByte ++ [.encEnd]

@[simp] theorem encCommands_nil : encCommands [] = [.encEnd] := rfl

@[simp] theorem encCommands_cons (b : Byte) (rest : List Byte) :
    encCommands (b :: rest) = .encByte b :: encCommands rest := rfl

theorem encBytes_eq_map_presents (p : List Byte) : encBytes p = (p.map .encByte).map presents := by
  rw [List.map_map]
  rfl

theorem encStream_eq_map_presents (input : List Byte) : encStream input = (encCommands input).map presents := by
  rw [encCommands, List.map_append, ← encBytes_eq_map_presents]
  rfl

theorem isEncInstr_of_mem_encBytes {p : List Byte} : ∀ i ∈ p.map Instr.encByte, isEncInstr i = true := by
  intro i hi
  obtain ⟨b, -, rfl⟩ := List.mem_map.mp hi
  rfl

theorem isEncInstr_of_mem_encCommands {input : List Byte} : ∀ i ∈ encCommands input, isEncInstr i = true := by
  intro i hi
  rcases List.mem_append.mp hi with hbyte | hend
  · exact isEncInstr_of_mem_encBytes i hbyte
  · obtain rfl := List.mem_singleton.mp hend
    rfl

/-- After a byte a run of its value is open (40_encoder.md R71). -/
theorem st_and_val_encByteRegs (u : EncUnit) (b : Byte) :
    (encByteRegs u b).st = .run ∧ (encByteRegs u b).val = b := by
  unfold encByteRegs
  split
  · exact ⟨rfl, rfl⟩
  · next hrun =>
    split
    · next hcont => exact ⟨hrun, ((runContinues_iff u b).mp hcont).left.symm⟩
    · exact ⟨rfl, rfl⟩

theorem countByte_toNat (b : Byte) : countByte b.toNat = b := by
  simp [countByte]

/-- A byte in an open run: the loop of R70 from that run is what the byte emits and the loop from the run after it. -/
theorem encOut_append_rleEncodeFrom {s : State} (hrun : s.enc.st = .run) (b : Byte) (rest : List Byte) :
    (encEffect (.encByte b) s).encOut ++
        rleEncodeFrom (encEffect (.encByte b) s).enc.val (encEffect (.encByte b) s).enc.len.toNat rest =
      s.encOut ++ rleEncodeFrom s.enc.val s.enc.len.toNat (b :: rest) := by
  have hiff : runContinues s.enc b = true ↔ b = s.enc.val ∧ s.enc.len.toNat < Config.cap := runContinues_iff s.enc b
  by_cases hcont : runContinues s.enc b = true
  · have hlen : (s.enc.len + 1).toNat = s.enc.len.toNat + 1 := continueRun_len hcont
    rw [encEffect_encByte_of_continues hrun hcont, rleEncodeFrom, if_pos (hiff.mp hcont), hlen]
  · rw [encEffect_encByte_of_closes hrun hcont, rleEncodeFrom, if_neg (mt hiff.mpr hcont), countByte_toNat,
      ← List.append_assoc]
    rfl

/-- The rest of a stream from an open run emits what the loop of R70 has still to append, and ends in the reset state. -/
theorem encEffects_encCommands_of_run {s : State} (hrun : s.enc.st = .run) (input : List Byte) :
    encEffects (encCommands input) s =
      { s with enc := ⟨.idle, 0, 0⟩, encOut := s.encOut ++ rleEncodeFrom s.enc.val s.enc.len.toNat input,
               encStatus := some .ok } := by
  induction input generalizing s with
  | nil =>
    rw [encCommands_nil, encEffects_cons, encEffects_nil, encEffect_encEnd_of_run hrun, rleEncodeFrom, countByte_toNat]
  | cons b rest ih =>
    have hrun' : (encEffect (.encByte b) s).enc.st = .run := (st_and_val_encByteRegs s.enc b).left
    rw [encCommands_cons, encEffects_cons, ih hrun', encOut_append_rleEncodeFrom hrun]
    rfl

/-- A stream from the reset state emits `encode` of its bytes (40_encoder.md R78). -/
theorem encEffects_encCommands {s : State} (hreset : s.enc = ⟨.idle, 0, 0⟩) (input : List Byte) :
    encEffects (encCommands input) s =
      { s with enc := ⟨.idle, 0, 0⟩, encOut := s.encOut ++ rleEncode input, encStatus := some .ok } := by
  have hidle : s.enc.st = .idle := by rw [hreset]
  cases input with
  | nil =>
    rw [encCommands_nil, encEffects_cons, encEffects_nil, encEffect_encEnd_of_idle hidle, rleEncode, List.append_nil]
  | cons b rest =>
    rw [encCommands_cons, encEffects_cons, encEffect_encByte_of_idle b hidle, encEffects_encCommands_of_run rfl,
      List.append_assoc]
    rfl

theorem encLegal_of_eq_reset {s : State} (hreset : s.enc = ⟨.idle, 0, 0⟩) : encLegal s.enc = true :=
  hreset ▸ encLegal_encReset

/-- Settles O31: the stream runs as its effects, and so does each first part of it, whose last command reports `OK`. -/
theorem encStreamRefinesEncode : Obligations.EncStreamRefinesEncode := by
  intro input s hreset
  have hlegal : encLegal s.enc = true := encLegal_of_eq_reset hreset
  rw [encStream_eq_map_presents]
  constructor
  · rw [runEvents_map_presents isEncInstr_of_mem_encCommands hlegal, encEffects_encCommands hreset]
  · intro k hk _
    rw [← List.map_take]
    have hne : (encCommands input).take k ≠ [] := by
      rw [ne_eq, List.take_eq_nil_iff, not_or]
      exact ⟨Nat.ne_of_gt hk, List.concat_ne_nil _ _⟩
    exact ⟨_, runEvents_map_presents (fun i hi => isEncInstr_of_mem_encCommands i (List.mem_of_mem_take hi)) hlegal,
      encStatus_encEffects hne s⟩

/-! ### The registers after raw bytes -/

/-- The length of the open run after a byte (40_encoder.md R71, R74). -/
theorem len_encByteRegs {u : EncUnit} (hrun : u.st = .run) (b : Byte) :
    (encByteRegs u b).len.toNat = if b = u.val ∧ u.len.toNat < 255 then u.len.toNat + 1 else 1 := by
  by_cases hcont : runContinues u b = true
  · rw [if_pos ((runContinues_iff u b).mp hcont), ← continueRun_len hcont]
    simp [encByteRegs, hrun, hcont]
  · rw [if_neg (mt (runContinues_iff u b).mpr hcont)]
    simp [encByteRegs, hrun, hcont, startRun]

theorem suffixLength_cons (v b : Byte) (reversed : List Byte) :
    suffixLength v (b :: reversed) = if b = v then suffixLength v reversed + 1 else 0 := by
  rw [suffixLength, List.takeWhile_cons]
  by_cases hb : b = v
  · simp [hb, suffixLength]
  · simp [hb]

/-- The registers after raw bytes: those after the last byte, on what the bytes before it leave. -/
theorem enc_encEffects_concat (p : List Byte) (b : Byte) (s : State) :
    (encEffects ((p ++ [b]).map .encByte) s).enc = encByteRegs (encEffects (p.map .encByte) s).enc b := by
  rw [List.map_append, List.map_singleton, encEffects_concat]
  rfl

/-- After raw bytes `p` and `b` the length register holds the equal suffix's length, which counts `b` too, reduced modulo the
cap (40_encoder.md R77). -/
theorem len_encEffects_concat {s : State} (hreset : s.enc = ⟨.idle, 0, 0⟩) (p : List Byte) (b : Byte) :
    (encEffects ((p ++ [b]).map .encByte) s).enc.len.toNat = suffixLength b p.reverse % 255 + 1 := by
  induction p using List.reverseRecOn generalizing b with
  | nil =>
    rw [enc_encEffects_concat, List.map_nil, encEffects_nil, hreset]
    rfl
  | append_singleton p c ih =>
    obtain ⟨hrun, hval⟩ := st_and_val_encByteRegs (encEffects (p.map .encByte) s).enc c
    rw [← enc_encEffects_concat] at hrun hval
    rw [enc_encEffects_concat, len_encByteRegs hrun, hval, ih c, List.reverse_concat', suffixLength_cons]
    by_cases hb : b = c
    · subst hb
      simp only [true_and, if_true]
      split <;> omega
    · rw [if_neg fun hjoin => hb hjoin.left, if_neg (Ne.symm hb)]

theorem encOut_isPrefix_encEffects (is : List Instr) (s : State) : s.encOut <+: (encEffects is s).encOut := by
  induction is generalizing s with
  | nil => exact List.prefix_rfl
  | cons i is ih => exact (List.prefix_append s.encOut (encBytesOut i s.enc)).trans (ih (encEffect i s))

/-- The output of raw bytes that leave a run open is the encoding without its last count, which `ENC.END` would emit; an
encoding has even length, so the output's is odd (40_encoder.md R77). -/
theorem exists_output_encEffects {s : State} (hreset : s.enc = ⟨.idle, 0, 0⟩) {p : List Byte}
    (hrun : (encEffects (p.map .encByte) s).enc.st = .run) :
    ∃ o, (encEffects (p.map .encByte) s).encOut = s.encOut ++ o ∧ o.length % 2 = 1 ∧
      o ++ [(encEffects (p.map .encByte) s).enc.len] = rleEncode p := by
  obtain ⟨o, hout⟩ := encOut_isPrefix_encEffects (p.map .encByte) s
  have hstream := congrArg State.encOut (encEffects_encCommands hreset p)
  rw [encCommands, encEffects_concat, encEffect_encEnd_of_run hrun, ← hout] at hstream
  have hcode : o ++ [(encEffects (p.map .encByte) s).enc.len] = rleEncode p := by simpa using hstream
  have heven := even_length_rleEncode p
  rw [← hcode, List.length_append, List.length_singleton] at heven
  exact ⟨o, hout.symm, by omega, hcode⟩

/-- Settles O30: the last byte opens or continues a run of its value, and the output and the length register are those of
`exists_output_encEffects` and `len_encEffects_concat`. -/
theorem encPrefixInvariant : Obligations.EncPrefixInvariant := by
  intro p s hreset
  have hexec := runEvents_map_presents (isEncInstr_of_mem_encBytes (p := p)) (encLegal_of_eq_reset hreset)
  rw [← encBytes_eq_map_presents] at hexec
  refine ⟨_, hexec, ?_, ?_⟩
  · rintro rfl
    exact ⟨congrArg EncUnit.st hreset, rfl⟩
  · intro hne
    obtain ⟨q, b, rfl⟩ := (List.eq_nil_or_concat' p).resolve_left hne
    obtain ⟨hrun, hval⟩ := st_and_val_encByteRegs (encEffects (q.map .encByte) s).enc b
    rw [← enc_encEffects_concat] at hrun hval
    refine ⟨hrun, exists_output_encEffects hreset hrun, ?_, ?_⟩
    · rw [hval, List.getLast_concat]
    · rw [len_encEffects_concat hreset, List.getLast_concat, List.reverse_concat', suffixLength_cons, if_pos rfl,
        Nat.add_sub_cancel]

end Sys2Proof.Machine
end

section
/-! The two DEC commands on the machine, case by case (41_decoder.md R91, R92), and the only way into ERR (R95). -/

namespace Sys2Proof.Machine

/-- Settles O14: `DEC.BYTE` answers `decByteStep` in every state, and the three cases are those of R91. -/
theorem decByteResult : Obligations.DecByteResult := by
  intro b s
  rw [exec_decByte]
  refine ⟨rfl, fun hval => ?_, fun hcnt => ?_, fun herr => ?_⟩
  · rw [decByteStep_of_val b hval]
  · rw [decByteStep_of_cnt b hcnt]
  · rw [decByteStep_of_err b herr]

/-- With no pair half read `DEC.END` restores the reset state (41_decoder.md R92). -/
theorem decEffect_decEnd_of_val {s : State} (hval : s.dec.st = .val) :
    decEffect .decEnd s = { s with dec := ⟨.val, 0⟩, decStatus := some .ok } := by
  simp [decEffect, decRegsAfter, decBytesOut, decEndRegs, hval, decReset, setDec, reportDec, decStatusOf]

/-- `DEC.END` after a value with no count raises MalformedInput and keeps the value (60_exceptions.md R135). -/
theorem decEffect_decEnd_of_cnt {s : State} (hcnt : s.dec.st = .cnt) :
    decEffect .decEnd s = { s with dec := ⟨.err, s.dec.val⟩, decStatus := some .malformedInput } := by
  simp [decEffect, decRegsAfter, decBytesOut, decEndRegs, hcnt, setDec, reportDec, decStatusOf]

/-- In ERR `DEC.END` only has its error reported again (41_decoder.md R92). -/
theorem decEffect_decEnd_of_err {s : State} (herr : s.dec.st = .err) :
    decEffect .decEnd s = { s with decStatus := some .malformedInput } := by
  simp [decEffect, decRegsAfter, decBytesOut, decEndRegs, herr, setDec, reportDec, decStatusOf]

/-- Settles O15: `DEC.END` answers its effect in every state, and the three cases are those of R92. -/
theorem decEndResult : Obligations.DecEndResult := by
  intro s
  rw [exec_of_not_isEncInstr rfl]
  refine ⟨⟨rfl, fun d => decode_wordOf_zero_add 1 1 d⟩, fun hval => ?_, fun hcnt => ⟨?_, rfl⟩, fun herr => ?_⟩
  · rw [decEffect_decEnd_of_val hval]
  · rw [decEffect_decEnd_of_cnt hcnt]
  · rw [decEffect_decEnd_of_err herr]

theorem decRegsAfter_of_isEncInstr {i : Instr} (hi : isEncInstr i = true) (d : DecUnit) : decRegsAfter i d = d := by
  cases i with
  | encByte b => rfl
  | encEnd => rfl
  | decByte b => simp [isEncInstr] at hi
  | decEnd => simp [isEncInstr] at hi
  | pair v c => simp [isEncInstr] at hi

/-- The DEC registers after an instruction of either unit. -/
theorem dec_of_exec_eq_next {i : Instr} {s t : State} (hexec : exec i s = .next t) : t.dec = decRegsAfter i s.dec := by
  cases hi : isEncInstr i with
  | true =>
    obtain ⟨-, rfl⟩ := eq_encEffect hi hexec
    rw [encEffect_dec, decRegsAfter_of_isEncInstr hi]
  | false =>
    obtain rfl := eq_decEffect hi hexec
    rw [decEffect_dec]

/-- `DEC.BYTE` neither enters nor leaves ERR (41_decoder.md R96). -/
theorem decByteRegs_st_eq_err_iff (b : Byte) (d : DecUnit) : (decByteRegs b d).st = .err ↔ d.st = .err := by
  obtain ⟨st, val⟩ := d
  cases st <;> simp [decByteRegs]

theorem decEndRegs_st_eq_err_iff {d : DecUnit} (hd : d.st ≠ .err) : (decEndRegs d).st = .err ↔ d.st = .cnt := by
  obtain ⟨st, val⟩ := d
  cases st with
  | val => simp [decEndRegs, decReset]
  | cnt => simp [decEndRegs]
  | err => exact absurd rfl hd

/-- Of all instructions only `DEC.END` leads to ERR, and only from CNT (41_decoder.md R95). -/
theorem decRegsAfter_st_eq_err_iff (i : Instr) {d : DecUnit} (hd : d.st ≠ .err) :
    (decRegsAfter i d).st = .err ↔ d.st = .cnt ∧ i = .decEnd := by
  cases i with
  | encByte b => simp [decRegsAfter, hd]
  | encEnd => simp [decRegsAfter, hd]
  | decByte b => simp [decRegsAfter, decByteRegs_st_eq_err_iff, hd]
  | decEnd => simp [decRegsAfter, decEndRegs_st_eq_err_iff hd]
  | pair v c => simp [decRegsAfter, decByteRegs_st_eq_err_iff, hd]

/-- Settles O22: an idle step holds the state and RESET leads to VAL, so ERR is entered by an instruction
(`decRegsAfter_st_eq_err_iff`). -/
theorem malformedInputIsRaisedOnlyByDecEndInCnt : Obligations.MalformedInputIsRaisedOnlyByDecEndInCnt := by
  intro s t hs hstep
  obtain ⟨hpending, rfl⟩ | ⟨d, rest, hpending, rfl⟩ | ⟨item, rest, hpending, hexec⟩ := step_eq_next hstep
  · simp [hpending, hs]
  · simp [hpending, decReset]
  · rw [dec_of_exec_eq_next hexec, decRegsAfter_st_eq_err_iff _ hs]
    simp [hpending]

end Sys2Proof.Machine
end

section
/-! Encoded data joined after complete pairs (41_decoder.md R90), and pairs that decode to nothing or alike (R93, R100). -/

namespace Sys2Proof.Machine

/-- Data after complete pairs decodes after them (41_decoder.md R90). -/
theorem rleDecode_append {e₁ : List Byte} (heven : e₁.length % 2 = 0) (e₂ : List Byte) :
    rleDecode (e₁ ++ e₂) = joinResults (rleDecode e₁) (rleDecode e₂) := by
  induction e₁ using pair_induction with
  | nil => exact (joinResults_nil _).symm
  | half v => simp at heven
  | pair v c e ih =>
    have heven' : e.length % 2 = 0 := (Nat.add_mod_right e.length 2).symm.trans heven
    rw [List.cons_append, List.cons_append, rleDecode_cons, rleDecode_cons, ih heven', joinResults_assoc]

theorem rleDecode_cons_zero (v : Byte) (e : List Byte) : rleDecode (v :: 0 :: e) = rleDecode e :=
  (rleDecode_cons v 0 e).trans (joinResults_nil _)

/-- Settles O51: no copies are appended, by `decode` or by the unit. -/
theorem zeroCountExpandsToNothing : Obligations.ZeroCountExpandsToNothing := by
  constructor
  · intro v e₁ e₂ heven
    rw [rleDecode_append heven, rleDecode_cons_zero, ← rleDecode_append heven]
  · intro s hcnt
    have hnone : s.decOut ++ List.replicate (0 : Byte).toNat s.dec.val = s.decOut := List.append_nil _
    rw [exec_decByte, decByteStep_of_cnt 0 hcnt, hnone]

/-- Settles O52: each sequence is the bytes of its pairs, and decodes to what they mean. -/
theorem decodeIsNotInjective : Obligations.DecodeIsNotInjective :=
  ⟨rleDecode_bytesOfPairs [(1, 1), (1, 1)], rleDecode_bytesOfPairs [(1, 2)], rleDecode_bytesOfPairs [(7, 0)],
    rleDecode_bytesOfPairs []⟩

end Sys2Proof.Machine
end

section
/-! The DEC unit against `decode`: the state after any encoded bytes (41_decoder.md R97), and the output of a stream (R98). -/

namespace Sys2Proof.Machine

/-! ### Runs of `DEC.BYTE` -/

/-- `DEC.BYTE` commands as they change the machine, one after the other. -/
def decByteSteps (p : List Byte) (s : State) : State := p.foldl (fun s b => decByteStep b s) s

@[simp] theorem decByteSteps_nil (s : State) : decByteSteps [] s = s := rfl

@[simp] theorem decByteSteps_cons (b : Byte) (p : List Byte) (s : State) :
    decByteSteps (b :: p) s = decByteSteps p (decByteStep b s) := rfl

@[simp] theorem decByteSteps_concat (p : List Byte) (b : Byte) (s : State) :
    decByteSteps (p ++ [b]) s = decByteStep b (decByteSteps p s) :=
  List.foldl_concat ..

theorem runEvents_decBytes (p : List Byte) (s : State) : runEvents (decBytes p) s = .next (decByteSteps p s) := by
  induction p generalizing s with
  | nil => rfl
  | cons b p ih =>
    have hcons : decBytes (b :: p) = presents (.decByte b) :: decBytes p := rfl
    rw [hcons, runEvents_cons, handle_presents _ s (decode_encode _), exec_decByte, andThen_next, ih, decByteSteps_cons]

theorem decStream_eq_append (input : List Byte) : decStream input = decBytes input ++ [presents .decEnd] := rfl

/-- A stream ends with `DEC.END` in the state its bytes lead to (30_encoding.md R62). -/
theorem runEvents_decStream (input : List Byte) (s : State) :
    runEvents (decStream input) s = .next (decEffect .decEnd (decByteSteps input s)) :=
  runEvents_snoc_dec rfl (runEvents_decBytes input s)

/-- The first commands of a stream are its first bytes. -/
theorem take_decStream {input : List Byte} {k : Nat} (hk : k ≤ input.length) :
    (decStream input).take k = decBytes (input.take k) := by
  have hbytes : k ≤ (decBytes input).length := by rwa [decBytes, List.length_map]
  rw [decStream_eq_append, List.take_append_of_le_length hbytes, decBytes, ← List.map_take]
  rfl

/-! ### Status -/

/-- Bytes neither enter nor leave ERR (41_decoder.md R97). -/
theorem decByteSteps_err (p : List Byte) (s : State) : (decByteSteps p s).dec.st = .err ↔ s.dec.st = .err := by
  induction p generalizing s with
  | nil => rfl
  | cons b p ih => rw [decByteSteps_cons, ih, decByteStep_err]

/-- Outside ERR the last byte reports `OK` (41_decoder.md R91). -/
theorem decStatus_decByteSteps {p : List Byte} (hne : p ≠ []) {s : State} (hs : s.dec.st ≠ .err) :
    (decByteSteps p s).decStatus = some .ok := by
  obtain ⟨q, b, rfl⟩ := (List.eq_nil_or_concat' p).resolve_left hne
  have hs' : (decByteSteps (q ++ [b]) s).dec.st ≠ .err := mt (decByteSteps_err _ s).mp hs
  rw [decByteSteps_concat] at hs' ⊢
  rw [decByteStep_decStatus, decStatusOf_eq_ite, if_neg hs']

/-! ### Output -/

/-- The two bytes of a pair emit what it means (30_encoding.md R56). -/
theorem decByteStep_decByteStep_of_val {s : State} (v c : Byte) (hval : s.dec.st = .val) :
    decByteStep c (decByteStep v s) =
      { s with dec := ⟨.val, v⟩, decOut := s.decOut ++ pairMeaning v c, decStatus := some .ok } := by
  rw [decByteStep_of_val v hval, decByteStep_of_cnt c rfl]
  rfl

/-- Complete pairs emit what they decode to and end in VAL; of the rest of the state they write the DEC unit's value and
status only (41_decoder.md R97). -/
theorem decByteSteps_of_even {p : List Byte} (heven : p.length % 2 = 0) {s : State} (hval : s.dec.st = .val) :
    ∃ out v status, rleDecode p = .bytes out ∧
      decByteSteps p s = { s with dec := ⟨.val, v⟩, decOut := s.decOut ++ out, decStatus := status } := by
  induction p using pair_induction generalizing s with
  | nil => exact ⟨[], s.dec.val, s.decStatus, rfl, by rw [← hval, List.append_nil, decByteSteps_nil]⟩
  | half v => simp at heven
  | pair v c e ih =>
    have heven' : e.length % 2 = 0 := (Nat.add_mod_right e.length 2).symm.trans heven
    have hpair := decByteStep_decByteStep_of_val v c hval
    obtain ⟨out, v', status, hdec, hrun⟩ := ih heven' (s := decByteStep c (decByteStep v s)) (by rw [hpair])
    refine ⟨pairMeaning v c ++ out, v', status, ?_, ?_⟩
    · rw [rleDecode_cons, hdec, joinResults]
    · rw [decByteSteps_cons, decByteSteps_cons, hrun, hpair, List.append_assoc]

/-- Complete pairs and one more byte: that byte is held as a value, and nothing is emitted for it (41_decoder.md R97). -/
theorem decByteSteps_concat_of_even {p : List Byte} (heven : p.length % 2 = 0) (b : Byte) {s : State}
    (hval : s.dec.st = .val) :
    ∃ out, rleDecode p = .bytes out ∧
      decByteSteps (p ++ [b]) s =
        { s with dec := ⟨.cnt, b⟩, decOut := s.decOut ++ out, decStatus := some .ok } := by
  obtain ⟨out, v, status, hdec, hrun⟩ := decByteSteps_of_even heven hval
  exact ⟨out, hdec, by rw [decByteSteps_concat, hrun, decByteStep_of_val b rfl]⟩

/-- Data of odd length is complete pairs and one more byte. -/
theorem exists_eq_concat_of_odd {p : List Byte} (hodd : p.length % 2 = 1) : ∃ q b, p = q ++ [b] ∧ q.length % 2 = 0 := by
  obtain rfl | ⟨q, b, rfl⟩ := List.eq_nil_or_concat' p
  · simp at hodd
  · rw [List.length_append, List.length_singleton] at hodd
    exact ⟨q, b, rfl, by omega⟩

/-- Settles O32: on even length the bytes are complete pairs, on odd length there is one more byte. -/
theorem decPrefixInvariant : Obligations.DecPrefixInvariant := by
  intro p s hreset
  have hval : s.dec.st = .val := congrArg DecUnit.st hreset
  rcases Nat.mod_two_eq_zero_or_one p.length with heven | hodd
  · obtain ⟨out, v, status, hdec, hrun⟩ := decByteSteps_of_even heven hval
    refine ⟨_, out, (runEvents_decBytes p s).trans (congrArg _ hrun), rfl, fun _ => ⟨rfl, hdec⟩, fun hodd => ?_⟩
    omega
  · obtain ⟨q, b, rfl, hq⟩ := exists_eq_concat_of_odd hodd
    obtain ⟨out, hdec, hrun⟩ := decByteSteps_concat_of_even hq b hval
    refine ⟨_, out, (runEvents_decBytes _ s).trans (congrArg _ hrun), rfl, fun heven => ?_, fun _ => ⟨rfl, ?_, ?_⟩⟩
    · omega
    · rw [List.getLast?_concat]
    · rwa [List.dropLast_concat]

/-- Settles O33: the bytes report `OK`, as none enters ERR, and `DEC.END` finds the state `decByteSteps_of_even` or
`decByteSteps_concat_of_even` gives. -/
theorem decStreamRefinesDecode : Obligations.DecStreamRefinesDecode := by
  intro input s hreset
  have hval : s.dec.st = .val := congrArg DecUnit.st hreset
  refine ⟨fun k hpos hk => ?_, fun heven => ?_, fun hodd => ?_⟩
  · have hne : input.take k ≠ [] := List.ne_nil_of_length_pos (by rw [List.length_take]; omega)
    rw [take_decStream hk]
    exact ⟨_, runEvents_decBytes _ s, decStatus_decByteSteps hne (by simp [hval])⟩
  · obtain ⟨out, v, status, hdec, hrun⟩ := decByteSteps_of_even heven hval
    exact ⟨out, hdec, by rw [runEvents_decStream, hrun, decEffect_decEnd_of_val rfl]⟩
  · obtain ⟨q, b, rfl, hq⟩ := exists_eq_concat_of_odd hodd
    obtain ⟨out, hdec, hrun⟩ := decByteSteps_concat_of_even hq b hval
    refine ⟨out, b, ?_, ?_, List.getLast?_concat, ?_⟩
    · rw [rleDecode_append hq, hdec]
      rfl
    · rwa [List.dropLast_concat]
    · rw [runEvents_decStream, hrun, decEffect_decEnd_of_cnt rfl]

end Sys2Proof.Machine
end

section
/-! When `decode` fails (42_codec_laws.md R115), and `encode` of one run (R112). -/

namespace Sys2Proof.Machine

/-- Data of even length is complete pairs, and decodes to what they mean. -/
theorem exists_rleDecode_eq_bytes {e : List Byte} (heven : e.length % 2 = 0) : ∃ out, rleDecode e = .bytes out :=
  ⟨_, bytesOfPairs_pairsOf e heven ▸ rleDecode_bytesOfPairs (pairsOf e)⟩

theorem rleDecode_eq_malformedInput_iff (e : List Byte) : rleDecode e = .malformedInput ↔ e.length % 2 = 1 := by
  rcases Nat.mod_two_eq_zero_or_one e.length with heven | hodd
  · obtain ⟨out, hdec⟩ := exists_rleDecode_eq_bytes heven
    simp [hdec, heven]
  · cases hdec : rleDecode e with
    | bytes out =>
      have heven := even_of_rleDecode_eq_bytes hdec
      omega
    | malformedInput => simp [hodd]

/-- Settles O43: a single value is data of odd length. -/
theorem malformedIffOdd : Obligations.MalformedIffOdd :=
  ⟨fun v => (rleDecode_eq_malformedInput_iff [v]).mpr rfl, rleDecode_eq_malformedInput_iff⟩

/-- Settles O47: the counts of decodable data, and the number of pairs of the maximal runs. -/
theorem codecLengths : Obligations.CodecLengths := by
  refine ⟨fun e out hdec => length_of_rleDecode_eq_bytes hdec, fun b => ?_, fun b => ?_⟩
  · rw [rleEncode_eq_bytesOfPairs, length_bytesOfPairs, length_encodedPairs]
  · exact (length_of_rleDecode_eq_bytes (rleDecode_rleEncode b)).symm

/-- Equal bytes are one maximal run. -/
theorem encodedPairs_replicate (n : Nat) (v : Byte) : encodedPairs (List.replicate n v) = runPairs v n := by
  cases n with
  | zero => rfl
  | succ n =>
    have hruns : maximalRuns (List.replicate (n + 1) v ++ []) = [(v, n + 1)] :=
      maximalRuns_replicate_other (by simp [maximalRuns]) n
    rw [List.append_nil] at hruns
    rw [encodedPairs, hruns, List.flatMap_singleton]

/-- Up to 255 equal bytes are one pair (40_encoder.md R73). -/
theorem rleEncode_replicate_of_le (v : Byte) {n : Nat} (hpos : 1 ≤ n) (hle : n ≤ 255) :
    rleEncode (List.replicate n v) = [v, countByte n] := by
  rw [rleEncode_eq_bytesOfPairs, encodedPairs_replicate, runPairs_of_le v hpos hle]
  rfl

/-- 255 more equal bytes are one more full pair, first (40_encoder.md R73). -/
theorem rleEncode_replicate_add (v : Byte) (n : Nat) :
    rleEncode (List.replicate (n + 255) v) = v :: 255 :: rleEncode (List.replicate n v) := by
  simp only [rleEncode_eq_bytesOfPairs, encodedPairs_replicate, runPairs_add, bytesOfPairs_cons]
  rfl

/-- Settles O42: 255 equal bytes are one pair, and 256 are a full pair and a run of 1. -/
theorem runCap : Obligations.RunCap := by
  intro v
  constructor
  · exact rleEncode_replicate_of_le v (by omega) (by omega)
  · exact (rleEncode_replicate_add v 1).trans rfl

end Sys2Proof.Machine
end

section
/-! The round trip through both units (42_codec_laws.md R110), and the source's examples (R111, R113, R114, R119, R120). -/

namespace Sys2Proof.Machine

/-- A DEC stream of even length reports `OK` at every step, `DEC.END` included (41_decoder.md R98). -/
theorem decStatus_take_decStream_of_even {input : List Byte} (heven : input.length % 2 = 0) {s : State}
    (hreset : s.dec = ⟨.val, 0⟩) {k : Nat} (hpos : 1 ≤ k) (hle : k ≤ input.length + 1) :
    ∃ t, runEvents ((decStream input).take k) s = .next t ∧ t.decStatus = some .ok := by
  obtain ⟨hbytes, hwhole, -⟩ := decStreamRefinesDecode input s hreset
  rcases Nat.le_add_one_iff.mp hle with hle | rfl
  · exact hbytes k hpos hle
  · obtain ⟨out, -, hrun⟩ := hwhole heven
    have hlen : (decStream input).length = input.length + 1 := by simp [decStream]
    rw [← hlen, List.take_length]
    exact ⟨_, hrun, rfl⟩

/-- Settles O40: the ENC unit emits `encode b`, and the DEC unit, left alone by that, `decode` of it. -/
theorem roundTrip : Obligations.RoundTrip := by
  refine ⟨fun b => ⟨even_length_rleEncode b, rleDecode_rleEncode b⟩, fun b s henc hdec => ?_⟩
  obtain ⟨hrun, hstatus⟩ := encStreamRefinesEncode b s henc
  obtain ⟨t, hrun, hout, hok, hsame⟩ : ∃ t, runEvents (encStream b) s = .next t ∧
      t.encOut = s.encOut ++ rleEncode b ∧ t.encStatus = some .ok ∧ t.dec = s.dec := ⟨_, hrun, rfl, rfl, rfl⟩
  have hdec' : t.dec = ⟨.val, 0⟩ := hsame.trans hdec
  obtain ⟨-, hwhole, -⟩ := decStreamRefinesDecode (rleEncode b) t hdec'
  obtain ⟨out, hdecoded, hrun'⟩ := hwhole (even_length_rleEncode b)
  rw [rleDecode_rleEncode, CodecResult.bytes.injEq] at hdecoded
  subst hdecoded
  exact ⟨t, rleEncode b, hrun, hout, hok, hstatus, hrun', fun k hpos hle =>
    decStatus_take_decStream_of_even (even_length_rleEncode b) hdec' hpos hle⟩

/-- `ENC.END` in the reset state is an empty stream (42_codec_laws.md R111). -/
theorem exec_encEnd_of_reset {s : State} (hreset : s.enc = ⟨.idle, 0, 0⟩) :
    exec .encEnd s = .next { s with encStatus := some .ok } := by
  rw [exec_of_isEncInstr_of_legal rfl (encLegal_of_eq_reset hreset),
    encEffect_encEnd_of_idle (congrArg EncUnit.st hreset), ← hreset]

/-- `DEC.END` in the reset state is an empty stream (42_codec_laws.md R111). -/
theorem exec_decEnd_of_reset {s : State} (hreset : s.dec = ⟨.val, 0⟩) :
    exec .decEnd s = .next { s with decStatus := some .ok } := by
  rw [exec_of_not_isEncInstr rfl, decEffect_decEnd_of_val (congrArg DecUnit.st hreset), ← hreset]

/-- Settles O41: encodings are computed, and each decoding is that of the bytes of its pairs. -/
theorem sourceExamples : Obligations.SourceExamples :=
  ⟨⟨rfl, rfl⟩, fun _ => exec_encEnd_of_reset, fun _ => exec_decEnd_of_reset,
    fun v => ⟨rfl, rleDecode_bytesOfPairs [(v, 1)]⟩, rfl, rleDecode_bytesOfPairs [(1, 3), (2, 2), (3, 1)], rfl,
    rleDecode_bytesOfPairs [(3, 3)], rleDecode_bytesOfPairs [(7, 2)]⟩

end Sys2Proof.Machine
end

section
/-! Canonical data (20_memory.md R43): its pairs, and that it is what the encoder emits (42_codec_laws.md R116). -/

namespace Sys2Proof.Machine

/-! ### The predicate -/

theorem canonicalPairs_cons_iff (p : Byte × Byte) (ps : List (Byte × Byte)) :
    canonicalPairs (p :: ps) = true ↔
      p.2 ≠ 0 ∧ (∀ q ∈ ps.head?, p.1 = q.1 → p.2 = 255) ∧ canonicalPairs ps = true := by
  cases ps with
  | nil => simp [canonicalPairs]
  | cons q rest =>
    simp only [canonicalPairs, Config.cap, Bool.and_eq_true, Bool.or_eq_true, bne_iff_ne, beq_iff_eq, asCount_eq_max_iff,
      List.head?_cons, Option.mem_some, forall_eq', ne_eq, ← Decidable.imp_iff_not_or, and_assoc]

/-- No count is 0, and neighbours with the same value stand only after a full pair (20_memory.md R43). -/
theorem canonicalPairs_iff (ps : List (Byte × Byte)) :
    canonicalPairs ps = true ↔ (∀ p ∈ ps, p.2 ≠ 0) ∧ ps.IsChain fun p q => p.1 = q.1 → p.2 = 255 := by
  induction ps with
  | nil => simp [canonicalPairs]
  | cons p ps ih =>
    rw [canonicalPairs_cons_iff, ih, List.forall_mem_cons, List.isChain_cons]
    tauto

theorem canonical_bytesOfPairs (ps : List (Byte × Byte)) : canonical (bytesOfPairs ps) = canonicalPairs ps := by
  simp [canonical, decodable]

theorem even_of_canonical {e : List Byte} (hcanon : canonical e = true) : e.length % 2 = 0 := by
  simp only [canonical, decodable, Bool.and_eq_true, beq_iff_eq] at hcanon
  exact hcanon.left

/-! ### What pairs mean -/

/-- The raw data of pairs, one after the other (30_encoding.md R56): what their bytes decode to (`rleDecode_bytesOfPairs`). -/
def expandPairs (ps : List (Byte × Byte)) : List Byte := ps.flatMap fun p => pairMeaning p.1 p.2

@[simp] theorem expandPairs_cons (p : Byte × Byte) (ps : List (Byte × Byte)) :
    expandPairs (p :: ps) = pairMeaning p.1 p.2 ++ expandPairs ps := rfl

@[simp] theorem expandPairs_concat (ps : List (Byte × Byte)) (p : Byte × Byte) :
    expandPairs (ps ++ [p]) = expandPairs ps ++ pairMeaning p.1 p.2 := by
  simp [expandPairs]

theorem expandPairs_encodedPairs (b : List Byte) : expandPairs (encodedPairs b) = b := by
  have hdec := rleDecode_rleEncode b
  rwa [rleEncode_eq_bytesOfPairs, rleDecode_bytesOfPairs, CodecResult.bytes.injEq] at hdec

/-- Decodable data is the bytes of some pairs, and decodes to what they mean. -/
theorem exists_pairs_of_rleDecode_eq_bytes {e b : List Byte} (hdec : rleDecode e = .bytes b) :
    ∃ ps, e = bytesOfPairs ps ∧ b = expandPairs ps := by
  have hpairs := bytesOfPairs_pairsOf e (even_of_rleDecode_eq_bytes hdec)
  rw [← hpairs, rleDecode_bytesOfPairs, CodecResult.bytes.injEq] at hdec
  exact ⟨pairsOf e, hpairs.symm, hdec.symm⟩

theorem head?_expandPairs {ps : List (Byte × Byte)} (hcount : ∀ p ∈ ps, p.2 ≠ 0) :
    (expandPairs ps).head? = ps.head?.map Prod.fst := by
  cases ps with
  | nil => rfl
  | cons p ps =>
    have hp : asCount p.2 ≠ 0 := mt (asCount_eq_zero_iff p.2).mp (hcount p List.mem_cons_self)
    simp [pairMeaning, rep, List.head?_append, List.head?_replicate, hp]

theorem getLast?_expandPairs {ps : List (Byte × Byte)} (hcount : ∀ p ∈ ps, p.2 ≠ 0) :
    (expandPairs ps).getLast? = ps.getLast?.map Prod.fst := by
  obtain rfl | ⟨ps, p, rfl⟩ := List.eq_nil_or_concat' ps
  · rfl
  · have hp : asCount p.2 ≠ 0 := mt (asCount_eq_zero_iff p.2).mp (hcount p List.mem_concat_self)
    simp [pairMeaning, rep, List.getLast?_append, List.getLast?_replicate, hp]

/-! ### Canonical pairs are those of the encoding -/

/-- Copies of a value before data that does not lengthen their run are one pair before the pairs of the data. -/
theorem encodedPairs_pairMeaning_append {v c : Byte} {data : List Byte} (hcount : c ≠ 0)
    (hjoint : v ∈ data.head? → c = 255) : encodedPairs (pairMeaning v c ++ data) = (v, c) :: encodedPairs data := by
  have hpos : 1 ≤ asCount c := Nat.one_le_iff_ne_zero.mpr (mt (asCount_eq_zero_iff c).mp hcount)
  have hbyte : countByte (asCount c) = c := countByte_toNat c
  cases data with
  | nil =>
    rw [List.append_nil, pairMeaning, rep, encodedPairs_replicate, runPairs_of_le v hpos (asCount_le c), hbyte]
    rfl
  | cons b rest =>
    by_cases hb : b = v
    · subst hb
      obtain rfl : c = 255 := hjoint rfl
      exact encodedPairs_replicate_cap b rest
    · rw [pairMeaning, rep, encodedPairs_replicate_cons_of_ne hpos (asCount_le c) hb, hbyte]

theorem encodedPairs_expandPairs {ps : List (Byte × Byte)} (hcanon : canonicalPairs ps = true) :
    encodedPairs (expandPairs ps) = ps := by
  induction ps with
  | nil => rfl
  | cons p ps ih =>
    obtain ⟨hcount, hjoint, hrest⟩ := (canonicalPairs_cons_iff p ps).mp hcanon
    obtain ⟨hcounts, -⟩ := (canonicalPairs_iff ps).mp hrest
    rw [expandPairs_cons, encodedPairs_pairMeaning_append hcount, ih hrest]
    rw [head?_expandPairs hcounts, Option.mem_map]
    rintro ⟨q, hq, hsame⟩
    exact hjoint q hq hsame.symm

theorem count_ne_zero_of_mem_encodedPairs (b : List Byte) : ∀ p ∈ encodedPairs b, p.2 ≠ 0 := by
  intro p hp hzero
  have hpos := count_pos_of_mem_encodedPairs hp
  rw [hzero] at hpos
  exact absurd hpos (by decide)

theorem canonicalPairs_encodedPairs (b : List Byte) : canonicalPairs (encodedPairs b) = true :=
  (canonicalPairs_iff _).mpr ⟨count_ne_zero_of_mem_encodedPairs b, isChain_encodedPairs b⟩

theorem canonical_rleEncode (b : List Byte) : canonical (rleEncode b) = true := by
  rw [rleEncode_eq_bytesOfPairs, canonical_bytesOfPairs, canonicalPairs_encodedPairs]

/-- Canonical data is re-encoded as it was (42_codec_laws.md R116). -/
theorem rleEncode_of_canonical {e b : List Byte} (hcanon : canonical e = true) (hdec : rleDecode e = .bytes b) :
    rleEncode b = e := by
  obtain ⟨ps, rfl, rfl⟩ := exists_pairs_of_rleDecode_eq_bytes hdec
  rw [canonical_bytesOfPairs] at hcanon
  rw [rleEncode_eq_bytesOfPairs, encodedPairs_expandPairs hcanon]

theorem canonical_iff_exists_rleEncode (e : List Byte) : canonical e = true ↔ ∃ b, rleEncode b = e := by
  constructor
  · intro hcanon
    obtain ⟨b, hdec⟩ := exists_rleDecode_eq_bytes (even_of_canonical hcanon)
    exact ⟨b, rleEncode_of_canonical hcanon hdec⟩
  · rintro ⟨b, rfl⟩
    exact canonical_rleEncode b

/-- By the round trip (42_codec_laws.md R116). -/
theorem rleEncode_injective : Function.Injective rleEncode := by
  intro b b' hsame
  have hdec := rleDecode_rleEncode b
  rw [hsame, rleDecode_rleEncode, CodecResult.bytes.injEq] at hdec
  exact hdec.symm

/-- Settles O46: canonical data is re-encoded as it was, and encodings are canonical; `[1, 1, 1, 1]` and `[1, 2]` decode alike. -/
theorem canonicalIsEncoded : Obligations.CanonicalIsEncoded := by
  obtain ⟨hlong, hshort, -, -⟩ := decodeIsNotInjective
  refine ⟨canonical_iff_exists_rleEncode, fun e b => rleEncode_of_canonical, fun e b hnot _ => ?_,
    fun b b' hsame => rleEncode_injective hsame, ?_, ?_⟩
  · refine ⟨canonical_rleEncode b, rleDecode_rleEncode b, ?_⟩
    rintro rfl
    rw [canonical_rleEncode] at hnot
    cases hnot
  · exact ⟨[1, 1, 1, 1], [1, 2], by decide, rfl, rfl, hlong.trans hshort.symm⟩
  · exact ⟨hlong, rfl, rleDecode_bytesOfPairs [(7, 0), (8, 2)], rfl⟩

end Sys2Proof.Machine
end

section
/-! Encodings one after the other (42_codec_laws.md R118): the joined pairs are the encoding of the whole exactly when they are
canonical, and no data that decodes to the same is shorter than the encoding. -/

namespace Sys2Proof.Machine

theorem rleDecode_rleEncode_append (b₁ b₂ : List Byte) :
    rleDecode (rleEncode b₁ ++ rleEncode b₂) = .bytes (b₁ ++ b₂) := by
  rw [rleDecode_append (even_length_rleEncode b₁), rleDecode_rleEncode, rleDecode_rleEncode, joinResults]

/-! ### The joint -/

theorem rleEncode_append_eq_iff_canonical (b₁ b₂ : List Byte) :
    rleEncode (b₁ ++ b₂) = rleEncode b₁ ++ rleEncode b₂ ↔ canonical (rleEncode b₁ ++ rleEncode b₂) = true := by
  constructor
  · intro hjoin
    rw [← hjoin]
    exact canonical_rleEncode (b₁ ++ b₂)
  · intro hcanon
    exact rleEncode_of_canonical hcanon (rleDecode_rleEncode_append b₁ b₂)

/-- Between two encodings only the pairs at the joint can break the canonical form. -/
theorem canonical_rleEncode_append_iff (b₁ b₂ : List Byte) :
    canonical (rleEncode b₁ ++ rleEncode b₂) = true ↔
      ∀ p ∈ (encodedPairs b₁).getLast?, ∀ q ∈ (encodedPairs b₂).head?, p.1 = q.1 → p.2 = 255 := by
  have hcounts : ∀ p ∈ encodedPairs b₁ ++ encodedPairs b₂, p.2 ≠ 0 :=
    List.forall_mem_append.mpr ⟨count_ne_zero_of_mem_encodedPairs b₁, count_ne_zero_of_mem_encodedPairs b₂⟩
  rw [rleEncode_eq_bytesOfPairs, rleEncode_eq_bytesOfPairs, ← bytesOfPairs_append, canonical_bytesOfPairs,
    canonicalPairs_iff, and_iff_right hcounts, List.isChain_append, and_iff_right (isChain_encodedPairs b₁),
    and_iff_right (isChain_encodedPairs b₂)]

/-- The first pair of an encoding has the first byte as its value. -/
theorem head?_eq_encodedPairs (b : List Byte) : b.head? = (encodedPairs b).head?.map Prod.fst := by
  rw [← head?_expandPairs (count_ne_zero_of_mem_encodedPairs b), expandPairs_encodedPairs]

/-- The last pair of an encoding has the last byte as its value. -/
theorem getLast?_eq_encodedPairs (b : List Byte) : b.getLast? = (encodedPairs b).getLast?.map Prod.fst := by
  rw [← getLast?_expandPairs (count_ne_zero_of_mem_encodedPairs b), expandPairs_encodedPairs]

theorem getLast?_bytesOfPairs (ps : List (Byte × Byte)) : (bytesOfPairs ps).getLast? = ps.getLast?.map Prod.snd := by
  obtain rfl | ⟨ps, p, rfl⟩ := List.eq_nil_or_concat' ps
  · rfl
  · simp

theorem rleEncode_append_eq_iff (b₁ b₂ : List Byte) :
    rleEncode (b₁ ++ b₂) = rleEncode b₁ ++ rleEncode b₂ ↔
      b₁ = [] ∨ b₂ = [] ∨ b₁.getLast? ≠ b₂.head? ∨ (rleEncode b₁).getLast? = some 255 := by
  have hlast : (rleEncode b₁).getLast? = (encodedPairs b₁).getLast?.map Prod.snd := by
    rw [rleEncode_eq_bytesOfPairs, getLast?_bytesOfPairs]
  rw [rleEncode_append_eq_iff_canonical, canonical_rleEncode_append_iff, hlast, ← List.getLast?_eq_none_iff,
    ← List.head?_eq_none_iff, getLast?_eq_encodedPairs, head?_eq_encodedPairs]
  cases (encodedPairs b₁).getLast? with
  | none => simp
  | some p =>
    cases (encodedPairs b₂).head? with
    | none => simp
    | some q =>
      simp only [Option.mem_some, forall_eq', Option.map_some, Option.some.injEq, reduceCtorEq, false_or, ne_eq,
        ← Decidable.imp_iff_not_or]

/-! ### The encoding is the shortest -/

/-- Copies of one value before the data, as many as a pair can mean, cost one pair at most. -/
theorem length_encodedPairs_pairMeaning_append_le (v c : Byte) (data : List Byte) :
    (encodedPairs (pairMeaning v c ++ data)).length ≤ (encodedPairs data).length + 1 := by
  have hle := asCount_le c
  rw [pairMeaning, rep, length_encodedPairs, length_encodedPairs]
  by_cases hsame : ∃ m rs, maximalRuns data = (v, m) :: rs
  · obtain ⟨m, rs, hruns⟩ := hsame
    rw [maximalRuns_replicate_same hruns, hruns]
    simp only [List.map_cons, List.sum_cons]
    omega
  · have hother : ∀ m rs, maximalRuns data ≠ (v, m) :: rs := fun m rs hruns => hsame ⟨m, rs, hruns⟩
    cases hcount : asCount c with
    | zero => exact Nat.le_succ _
    | succ n =>
      rw [maximalRuns_replicate_other hother]
      simp only [List.map_cons, List.sum_cons]
      omega

theorem length_encodedPairs_expandPairs_le (ps : List (Byte × Byte)) :
    (encodedPairs (expandPairs ps)).length ≤ ps.length := by
  induction ps with
  | nil => exact Nat.le_refl 0
  | cons p ps ih =>
    calc (encodedPairs (pairMeaning p.1 p.2 ++ expandPairs ps)).length
        ≤ (encodedPairs (expandPairs ps)).length + 1 := length_encodedPairs_pairMeaning_append_le ..
      _ ≤ ps.length + 1 := Nat.succ_le_succ ih

/-- No data that decodes to `b` is shorter than `encode(b)`. -/
theorem length_rleEncode_le_of_rleDecode_eq_bytes {e b : List Byte} (hdec : rleDecode e = .bytes b) :
    (rleEncode b).length ≤ e.length := by
  obtain ⟨ps, rfl, rfl⟩ := exists_pairs_of_rleDecode_eq_bytes hdec
  rw [rleEncode_eq_bytesOfPairs, length_bytesOfPairs, length_bytesOfPairs]
  exact Nat.mul_le_mul_left 2 (length_encodedPairs_expandPairs_le ps)

/-- Settles O48: the joined encodings decode to the whole, so they are its encoding where they are canonical, and are never
shorter. -/
theorem concatenation : Obligations.Concatenation := by
  refine ⟨fun e₁ e₂ heven => rleDecode_append heven e₂, fun b₁ b₂ => ⟨rleEncode_append_eq_iff b₁ b₂, ?_, ?_⟩,
    ⟨rfl, rfl⟩, ?_, ?_⟩
  · exact length_rleEncode_le_of_rleDecode_eq_bytes (rleDecode_rleEncode_append b₁ b₂)
  · exact rleDecode_rleEncode_append b₁ b₂
  · obtain ⟨-, hcap⟩ := runCap 1
    have hjoin : List.replicate 254 (1 : Byte) ++ List.replicate 2 1 = List.replicate 256 1 :=
      List.replicate_append_replicate
    exact (congrArg rleEncode hjoin).trans hcap
  · rw [rleEncode_replicate_of_le 1 (by omega) (by omega)]
    rfl

end Sys2Proof.Machine
end

section
/-! State ERR: it absorbs the DEC commands and every run without RESET, and RESET leaves it (41_decoder.md R96,
60_exceptions.md R137). -/

namespace Sys2Proof.Machine

/-- In ERR a DEC command or a pair only has its error reported again: a pair is two `DEC.BYTE` (log 1), and the first leaves
ERR as it is. -/
theorem exec_of_not_isEncInstr_of_err {i : Instr} (hi : isEncInstr i = false) {s : State} (herr : s.dec.st = .err) :
    exec i s = .next { s with decStatus := some .malformedInput } := by
  cases i with
  | encByte b => simp [isEncInstr] at hi
  | encEnd => simp [isEncInstr] at hi
  | decByte b => rw [exec_decByte, decByteStep_of_err b herr]
  | decEnd => rw [exec_of_not_isEncInstr hi, decEffect_decEnd_of_err herr]
  | pair v c =>
    rw [exec_pair, decByteStep_of_err c ((decByteStep_err v s).mpr herr), decByteStep_of_err v herr]

/-- No RESET waits among the host's events. -/
def NoResetPending (s : State) : Prop := ∀ e ∈ s.pending, isReset e = false

/-- From ERR with no RESET waiting, `t` has the DEC registers and output of `s`, keeps a reported MalformedInput, and has no
RESET waiting either. -/
def ErrAbsorbs (s t : State) : Prop :=
  s.dec.st = .err → NoResetPending s →
    t.dec = s.dec ∧ t.decOut = s.decOut ∧
      (s.decStatus = some .malformedInput → t.decStatus = some .malformedInput) ∧ NoResetPending t

theorem ErrAbsorbs.refl (s : State) : ErrAbsorbs s s :=
  fun _ hpending => ⟨rfl, rfl, id, hpending⟩

theorem ErrAbsorbs.trans {s t u : State} (hst : ErrAbsorbs s t) (htu : ErrAbsorbs t u) : ErrAbsorbs s u := by
  intro herr hpending
  obtain ⟨hdec, hout, hstatus, hpending'⟩ := hst herr hpending
  obtain ⟨hdec', hout', hstatus', hpending''⟩ := htu (hdec ▸ herr) hpending'
  exact ⟨hdec'.trans hdec, hout'.trans hout, hstatus' ∘ hstatus, hpending''⟩

/-- An ENC command leaves the DEC side, and a DEC command or a pair only reports again. -/
theorem exec_errAbsorbs {i : Instr} {s t : State} (hexec : exec i s = .next t) : ErrAbsorbs s t := by
  intro herr hpending
  cases hi : isEncInstr i with
  | true =>
    obtain ⟨-, rfl⟩ := eq_encEffect hi hexec
    exact ⟨rfl, rfl, id, hpending⟩
  | false =>
    rw [exec_of_not_isEncInstr_of_err hi herr, Host.Outcome.next.injEq] at hexec
    subst hexec
    exact ⟨rfl, rfl, fun _ => rfl, hpending⟩

/-- With no RESET waiting a step is idle or runs an instruction. -/
theorem step_errAbsorbs {s t : State} (hstep : step s = .next t) : ErrAbsorbs s t := by
  intro herr hpending
  obtain ⟨-, rfl⟩ | ⟨d, rest, hreset, -⟩ | ⟨item, rest, hitem, hexec⟩ := step_eq_next hstep
  · exact ErrAbsorbs.refl t herr hpending
  · have hnot : isReset (.reset d) = false := hpending _ (by simp [hreset])
    simp [isReset] at hnot
  · have hrest : NoResetPending { s with pending := rest } := fun e he => hpending e (by simp [hitem, he])
    have habsorbs : ErrAbsorbs { s with pending := rest } t := exec_errAbsorbs hexec
    exact habsorbs herr hrest

/-- Settles O23: `exec_of_not_isEncInstr_of_err` for one command, absorption by each step for a run, and RESET writes the
unit's reset registers. -/
theorem errorStateAbsorbsCommands : Obligations.ErrorStateAbsorbsCommands := by
  intro s herr
  refine ⟨fun i hi => exec_of_not_isEncInstr_of_err hi herr, fun k t hpending hrun => ?_, fun dropped rest hreset => ?_⟩
  · obtain ⟨hdec, hout, hstatus, -⟩ := runSteps_rel ErrAbsorbs.refl ErrAbsorbs.trans step_errAbsorbs hrun herr hpending
    exact ⟨hdec, hout, hstatus⟩
  · exact ⟨resetCore { s with pending := rest }, (step_of_cons hreset).trans (handle_reset dropped _), rfl⟩

end Sys2Proof.Machine
end

section
/-! RESET as an event (70_reset_and_hazards.md R150), and that every command and every run is accepted (R163). -/

namespace Sys2Proof.Machine

/-- Settles O3: the step takes the event, and RESET wins over the item presented with it. -/
theorem resetEventRestoresBothUnits : Obligations.ResetEventRestoresBothUnits :=
  fun dropped _ _ hpending => (step_of_cons hpending).trans (handle_reset dropped _)

/-- On a legal ENC pattern an instruction answers a next state, and its ENC pattern is legal again (10_state.md R14). -/
theorem exec_of_legal (i : Instr) {s : State} (hlegal : encLegal s.enc = true) :
    ∃ t, exec i s = .next t ∧ encLegal t.enc = true := by
  cases hi : isEncInstr i with
  | true => exact ⟨encEffect i s, exec_of_isEncInstr_of_legal hi hlegal, encLegal_encRegsAfter hlegal⟩
  | false => exact ⟨decEffect i s, exec_of_not_isEncInstr hi s, hlegal⟩

theorem handle_of_legal (e : Event) {s : State} (hlegal : encLegal s.enc = true) :
    ∃ t, handle e s = .next t ∧ encLegal t.enc = true := by
  cases e with
  | reset d => exact ⟨resetCore s, handle_reset d s, encLegal_encReset⟩
  | present item => exact exec_of_legal (decode item) hlegal

/-- Any events run from a legal ENC pattern, and lead to a legal one. -/
theorem runEvents_of_legal (es : List Event) {s : State} (hlegal : encLegal s.enc = true) :
    ∃ t, runEvents es s = .next t ∧ encLegal t.enc = true := by
  induction es generalizing s with
  | nil => exact ⟨s, rfl, hlegal⟩
  | cons e es ih =>
    obtain ⟨s₁, hfirst, hlegal₁⟩ := handle_of_legal e hlegal
    rw [runEvents_cons, hfirst, andThen_next]
    exact ih hlegal₁

/-- Settles O27: `exec_of_legal` for one instruction, `runEvents_of_legal` for any events. -/
theorem everyCommandIsAccepted : Obligations.EveryCommandIsAccepted := by
  refine ⟨fun i s hlegal => ?_, fun es s ⟨hlegal, _⟩ => ?_⟩
  · obtain ⟨t, hexec, -⟩ := exec_of_legal i hlegal
    exact ⟨t, hexec⟩
  · obtain ⟨t, hrun, -⟩ := runEvents_of_legal es hlegal
    exact ⟨t, hrun⟩

end Sys2Proof.Machine
end

section
/-! The host's one-event steps (70_reset_and_hazards.md R154), which see no other waiting events, as parts of a run of events. -/

namespace Sys2Proof.Machine

/-- An event is handled as the host's step on it alone, with the waiting events put back. -/
theorem handle_eq_stepOn (e : Event) (s : State) :
    handle e s = andThen (stepOn e s) fun t => .next (present s.pending t) := by
  have hs : present s.pending { s with pending := [] } = s := by simp [present]
  rw [stepOn_eq, ← handle_present, hs]

/-- The result of a run does not depend on what waits at its start. -/
theorem runResult_present (u : CodecUnit) (es waiting : List Event) (s : State) :
    runResult u es (present waiting s) = runResult u es s := by
  cases es <;> rfl

/-- Whether the host follows the rules does not depend on what waits. -/
theorem followsFrom_present (v : HostView) (es waiting : List Event) (s : State) :
    followsFrom v es (present waiting s) = followsFrom v es s := by
  cases es <;> rfl

theorem resultAtEnd_present (u : CodecUnit) (waiting : List Event) (t : State) :
    resultAtEnd u (present waiting t) = resultAtEnd u t := by
  cases u <;> rfl

/-- The host's step on an event that the machine handles. -/
theorem stepOn_of_handle {e : Event} {s t : State} (h : handle e s = .next t) :
    ∃ t₀, stepOn e s = .next t₀ ∧ present s.pending t₀ = t := by
  rw [handle_eq_stepOn, andThen_eq_next] at h
  obtain ⟨t₀, hstep, hnext⟩ := h
  exact ⟨t₀, hstep, Host.Outcome.next.inj hnext⟩

end Sys2Proof.Machine
end

section
/-! The result of a run of a unit (70_reset_and_hazards.md R154): the run is passed through up to the event that ends it, and its
result is that of the unit's stream of the bytes it was given, as the other unit's commands leave its side. -/

namespace Sys2Proof.Machine

/-! ### Where a run ends -/

/-- The events leave a unit's run open: no RESET, and no END for the unit. -/
def KeepsOpen (u : CodecUnit) (es : List Event) : Prop := ∀ e ∈ es, isReset e = false ∧ endsStream u e = false

/-- A run passes through events that leave it open. -/
theorem runResult_append {u : CodecUnit} {pre : List Event} (hopen : KeepsOpen u pre) {s t : State}
    (hrun : runEvents pre s = .next t) (rest : List Event) : runResult u (pre ++ rest) s = runResult u rest t := by
  induction pre generalizing s with
  | nil =>
    rw [runEvents_nil, Host.Outcome.next.injEq] at hrun
    rw [List.nil_append, hrun]
  | cons e pre ih =>
    rw [runEvents_cons, andThen_eq_next] at hrun
    obtain ⟨s₁, hfirst, hrest⟩ := hrun
    obtain ⟨s₀, hstep, rfl⟩ := stepOn_of_handle hfirst
    obtain ⟨⟨hreset, hend⟩, hopen'⟩ := List.forall_mem_cons.mp hopen
    rw [← ih hopen' hrest, runResult_present]
    simp [runResult, hreset, hend, hstep]

/-- A run stops without a result at RESET. -/
theorem runResult_cons_of_isReset (u : CodecUnit) {e : Event} (hreset : isReset e = true) (post : List Event) (s : State) :
    runResult u (e :: post) s = none := by
  simp [runResult, hreset]

/-- END for the unit ends its run, whatever comes after. -/
theorem runResult_cons_of_endsStream {u : CodecUnit} {e : Event} (hend : endsStream u e = true) {s t : State}
    (hhandle : handle e s = .next t) (post : List Event) :
    runResult u (e :: post) s = some (resultAtEnd u t) := by
  have hreset : isReset e = false := by
    cases e with
    | reset d => simp [endsStream] at hend
    | present item => rfl
  obtain ⟨t₀, hstep, rfl⟩ := stepOn_of_handle hhandle
  simp [runResult, hreset, hend, hstep, resultAtEnd_present]

/-- The END command of a unit (30_encoding.md R52). -/
def endInstr : CodecUnit → Instr
  | .enc => .encEnd
  | .dec => .decEnd

/-- An event that ends a unit's stream is handled as the unit's END, whatever the data of its word (30_encoding.md R53). -/
theorem handle_of_endsStream {u : CodecUnit} {e : Event} (hend : endsStream u e = true) (s : State) :
    handle e s = exec (endInstr u) s := by
  cases e with
  | reset d => simp [endsStream] at hend
  | present item =>
    cases u with
    | enc => cases hi : decode item <;> simp_all [endsStream, endInstr]
    | dec => cases hi : decode item <;> simp_all [endsStream, endInstr]

/-- The result of a run, by the event that ends it, when `r` is what the host makes of the state END leads to. -/
theorem runResult_by_end {u : CodecUnit} {pre : List Event} (hopen : KeepsOpen u pre) {s : State}
    (hlegal : encLegal s.enc = true) {r : CodecResult}
    (hresult : ∀ {t t'}, runEvents pre s = .next t → exec (endInstr u) t = .next t' → resultAtEnd u t' = r)
    (post : List Event) (e : Event) :
    runResult u pre s = none ∧
    (isReset e = true → runResult u (pre ++ e :: post) s = none) ∧
    (endsStream u e = true → runResult u (pre ++ e :: post) s = some r) := by
  obtain ⟨t, hrun, hlegal_t⟩ := runEvents_of_legal pre hlegal
  refine ⟨?_, fun hreset => ?_, fun hend => ?_⟩
  · rw [← List.append_nil pre, runResult_append hopen hrun]
    rfl
  · rw [runResult_append hopen hrun, runResult_cons_of_isReset u hreset]
  · obtain ⟨t', hhandle, -⟩ := handle_of_legal e hlegal_t
    rw [runResult_append hopen hrun, runResult_cons_of_endsStream hend hhandle,
      hresult hrun ((handle_of_endsStream hend t).symm.trans hhandle)]

/-! ### The bytes given to a unit -/

/-- A run seen through `side`, when each event changes `side` as feeding the bytes it gives unit `u` one by one does: the whole
run changes it as feeding all those bytes does. -/
theorem side_runEvents {α : Type} {side : State → α} {u : CodecUnit} {feed : State → Byte → State} {es : List Event}
    (hfeed : ∀ e ∈ es, ∀ {s s' t}, side s' = side s → handle e s = .next t →
      side ((inputOf u e).foldl feed s') = side t)
    {s s' t : State} (hside : side s' = side s) (hrun : runEvents es s = .next t) :
    side ((es.flatMap (inputOf u)).foldl feed s') = side t := by
  induction es generalizing s s' with
  | nil =>
    rw [runEvents_nil, Host.Outcome.next.injEq] at hrun
    exact hrun ▸ hside
  | cons e es ih =>
    rw [runEvents_cons, andThen_eq_next] at hrun
    obtain ⟨s₁, hfirst, hrest⟩ := hrun
    obtain ⟨he, hes⟩ := List.forall_mem_cons.mp hfeed
    rw [List.flatMap_cons, List.foldl_append]
    exact ih hes (he hside hfirst) hrest

/-! ### The ENC unit -/

/-- What an ENC command makes of the ENC side depends on that side alone. -/
theorem encSide_encEffect_congr (i : Instr) {s s' : State} (hside : encSide s' = encSide s) :
    encSide (encEffect i s') = encSide (encEffect i s) := by
  obtain ⟨henc, hout, -⟩ := encSide_eq_iff.mp hside
  exact encSide_eq_iff.mpr (by simp [henc, hout])

/-- An event that leaves the ENC run open changes the ENC side as `ENC.BYTE` of the bytes it gives the unit does. -/
theorem encSide_handle {e : Event} (hreset : isReset e = false) (hend : endsStream .enc e = false) {s s' t : State}
    (hside : encSide s' = encSide s) (hhandle : handle e s = .next t) :
    encSide ((inputOf .enc e).foldl (fun s b => encEffect (.encByte b) s) s') = encSide t := by
  cases e with
  | reset d => simp [isReset] at hreset
  | present item =>
    have hframe : isEncInstr (decode item) = false → encSide s' = encSide t := fun hi =>
      hside.trans (handle_encSide_frame (by simp [hi]) hhandle).symm
    rw [handle_present_item] at hhandle
    simp only [inputOf]
    cases hi : decode item with
    | encByte b =>
      obtain ⟨-, rfl⟩ := eq_encEffect rfl (hi ▸ hhandle)
      exact encSide_encEffect_congr _ hside
    | encEnd => simp [endsStream, hi] at hend
    | decByte b => exact hframe (by rw [hi]; rfl)
    | decEnd => exact hframe (by rw [hi]; rfl)
    | pair v c => exact hframe (by rw [hi]; rfl)

/-- The ENC side after events that leave the run open is that after `ENC.BYTE` of the bytes given to the unit. -/
theorem encSide_runEvents {pre : List Event} (hopen : KeepsOpen .enc pre) {s t : State}
    (hrun : runEvents pre s = .next t) :
    encSide (encEffects ((pre.flatMap (inputOf .enc)).map .encByte) s) = encSide t := by
  rw [encEffects, List.foldl_map]
  refine side_runEvents (fun e he => ?_) rfl hrun
  obtain ⟨hreset, hend⟩ := hopen e he
  exact encSide_handle hreset hend

/-- Settles O34: at END the ENC side is that of the stream of the bytes given, whose output is `encode` of them. -/
theorem encRunResult : Obligations.EncRunResult := by
  intro pre post e s hreset hopen
  have hlegal : encLegal (takeOutputs s).enc = true := encLegal_of_eq_reset hreset
  refine runResult_by_end hopen hlegal (fun hrun hexec => ?_) post e
  obtain ⟨-, rfl⟩ := eq_encEffect rfl hexec
  have hside := encSide_encEffect_congr .encEnd (encSide_runEvents hopen hrun)
  rw [← encEffects_concat, ← encCommands, encEffects_encCommands (s := takeOutputs s) hreset] at hside
  obtain ⟨-, hout, -⟩ := encSide_eq_iff.mp hside
  exact congrArg CodecResult.bytes hout.symm

/-! ### The DEC unit -/

/-- What a DEC command or a pair makes of the DEC side depends on that side alone. -/
theorem decSide_decEffect_congr (i : Instr) {s s' : State} (hside : decSide s' = decSide s) :
    decSide (decEffect i s') = decSide (decEffect i s) := by
  obtain ⟨hdec, hout, -⟩ := decSide_eq_iff.mp hside
  exact decSide_eq_iff.mpr (by simp [hdec, hout])

/-- An event that leaves the DEC run open changes the DEC side as `DEC.BYTE` of the bytes it gives the unit does; a pair gives
two (30_encoding.md R62; log 1). -/
theorem decSide_handle {e : Event} (hreset : isReset e = false) (hend : endsStream .dec e = false) {s s' t : State}
    (hside : decSide s' = decSide s) (hhandle : handle e s = .next t) :
    decSide (decByteSteps (inputOf .dec e) s') = decSide t := by
  cases e with
  | reset d => simp [isReset] at hreset
  | present item =>
    have hframe : isEncInstr (decode item) = true → decSide s' = decSide t := fun hi =>
      hside.trans (handle_decSide_frame (by simp [isReset, hi]) hhandle).symm
    rw [handle_present_item] at hhandle
    simp only [inputOf]
    cases hi : decode item with
    | encByte b => exact hframe (by rw [hi]; rfl)
    | encEnd => exact hframe (by rw [hi]; rfl)
    | decByte b =>
      obtain rfl := eq_decEffect rfl (hi ▸ hhandle)
      simp only [decByteSteps_cons, decByteSteps_nil, decByteStep_eq_decEffect]
      exact decSide_decEffect_congr _ hside
    | decEnd => simp [endsStream, hi] at hend
    | pair v c =>
      obtain rfl := eq_decEffect rfl (hi ▸ hhandle)
      simp only [pairBytes, decByteSteps_cons, decByteSteps_nil, decByteStep_eq_decEffect, decEffect_decByte_decByte]
      exact decSide_decEffect_congr _ hside

/-- The DEC side after events that leave the run open is that after `DEC.BYTE` of the bytes given to the unit. -/
theorem decSide_runEvents {pre : List Event} (hopen : KeepsOpen .dec pre) {s t : State}
    (hrun : runEvents pre s = .next t) :
    decSide (decByteSteps (pre.flatMap (inputOf .dec)) s) = decSide t := by
  refine side_runEvents (fun e he => ?_) rfl hrun
  obtain ⟨hreset, hend⟩ := hopen e he
  exact decSide_handle hreset hend

/-- What the host makes of a DEC run is read from the DEC side. -/
theorem resultAtEnd_dec_congr {s s' : State} (hside : decSide s' = decSide s) :
    resultAtEnd .dec s' = resultAtEnd .dec s := by
  obtain ⟨-, hout, hstatus⟩ := decSide_eq_iff.mp hside
  simp [resultAtEnd, hout, hstatus]

/-- What the host makes of a DEC stream from the reset state with the outputs taken is `decode` of its bytes, the error alone on
odd length (41_decoder.md R98, 60_exceptions.md R145). -/
theorem resultAtEnd_decStream {s t : State} (hreset : s.dec = ⟨.val, 0⟩) (hout : s.decOut = []) {input : List Byte}
    (hrun : runEvents (decStream input) s = .next t) : resultAtEnd .dec t = rleDecode input := by
  obtain ⟨-, heven, hodd⟩ := decStreamRefinesDecode input s hreset
  rcases Nat.mod_two_eq_zero_or_one input.length with h | h
  · obtain ⟨out, hdec, hrun'⟩ := heven h
    obtain rfl := Host.Outcome.next.inj (hrun.symm.trans hrun')
    simp [resultAtEnd, hdec, hout]
  · obtain ⟨out, last, hdec, -, -, hrun'⟩ := hodd h
    obtain rfl := Host.Outcome.next.inj (hrun.symm.trans hrun')
    simp [resultAtEnd, hdec]

/-- Settles O35: at END the DEC side is that of the stream of the bytes given, of which the host makes `decode` of them. -/
theorem decRunResult : Obligations.DecRunResult := by
  intro pre post e s hreset hlegal hopen
  have hlegal' : encLegal (takeOutputs s).enc = true := hlegal
  refine runResult_by_end hopen hlegal' (fun hrun hexec => ?_) post e
  obtain rfl := eq_decEffect rfl hexec
  rw [← resultAtEnd_dec_congr (decSide_decEffect_congr (endInstr .dec) (decSide_runEvents hopen hrun))]
  exact resultAtEnd_decStream (s := takeOutputs s) hreset rfl (runEvents_decStream _ _)

end Sys2Proof.Machine
end

section
/-! Streams in a row (70_reset_and_hazards.md R151), and the output of a stream that is not finished (R155). -/

namespace Sys2Proof.Machine

/-- Streams in a row from a `start` state, when each leads to a `start` state again and `emit` appends its result: together they
emit their results in order. -/
theorem runEvents_flatMap_streams {α : Type} {stream : α → List Event} {result : α → List Byte} {start : State → Prop}
    {emit : List Byte → State → State}
    (hstream : ∀ a {s}, start s → runEvents (stream a) s = .next (emit (result a) s))
    (hstart : ∀ out {s}, start s → start (emit out s))
    (hemit : ∀ out out' s, emit out' (emit out s) = emit (out ++ out') s)
    {inputs : List α} (hne : inputs ≠ []) {s : State} (hs : start s) :
    runEvents (inputs.flatMap stream) s = .next (emit (inputs.flatMap result) s) := by
  induction inputs generalizing s with
  | nil => exact absurd rfl hne
  | cons a inputs ih =>
    rw [List.flatMap_cons, List.flatMap_cons, runEvents_append, hstream a hs, andThen_next]
    by_cases hnil : inputs = []
    · rw [hnil, List.flatMap_nil, List.flatMap_nil, List.append_nil, runEvents_nil]
    · rw [ih hnil (hstart _ hs), hemit]

/-- The machine after ENC streams that emit `out` together: the registers are in the reset state again (40_encoder.md R78). -/
def afterEncStreams (out : List Byte) (s : State) : State :=
  { s with encOut := s.encOut ++ out, encStatus := some .ok }

theorem runEvents_encStream (input : List Byte) {s : State} (hreset : s.enc = ⟨.idle, 0, 0⟩) :
    runEvents (encStream input) s = .next (afterEncStreams (rleEncode input) s) := by
  obtain ⟨hrun, -⟩ := encStreamRefinesEncode input s hreset
  rw [hrun, ← hreset]
  rfl

/-- The machine after DEC streams of complete pairs that emit `out` together: the registers are in the reset state again
(41_decoder.md R98). -/
def afterDecStreams (out : List Byte) (s : State) : State :=
  { s with decOut := s.decOut ++ out, decStatus := some .ok }

theorem runEvents_decStream_bytesOfPairs (ps : List (Byte × Byte)) {s : State} (hreset : s.dec = ⟨.val, 0⟩) :
    runEvents (decStream (bytesOfPairs ps)) s = .next (afterDecStreams (expandPairs ps) s) := by
  obtain ⟨-, heven, -⟩ := decStreamRefinesDecode (bytesOfPairs ps) s hreset
  obtain ⟨out, hdec, hrun⟩ := heven (by simp)
  obtain rfl : expandPairs ps = out := CodecResult.bytes.inj ((rleDecode_bytesOfPairs ps).symm.trans hdec)
  rw [hrun, ← hreset]
  rfl

/-- Settles O36: `runEvents_flatMap_streams` for each unit, as each stream ends in the reset state it starts in. -/
theorem streamsInARowAreIndependent : Obligations.StreamsInARowAreIndependent := by
  constructor
  · intro inputs s hreset hne
    exact runEvents_flatMap_streams (start := fun s => s.enc = ⟨.idle, 0, 0⟩) (emit := afterEncStreams)
      runEvents_encStream (fun _ _ h => h) (fun _ _ _ => by simp [afterEncStreams]) hne hreset
  · intro inputs s hreset hne
    exact runEvents_flatMap_streams (start := fun s => s.dec = ⟨.val, 0⟩) (emit := afterDecStreams) (result := expandPairs)
      runEvents_decStream_bytesOfPairs (fun _ _ h => h) (fun _ _ _ => by simp [afterDecStreams]) hne hreset

/-- Settles O37: the emitted bytes are odd in number, and lack the open run's count only (40_encoder.md R77). -/
theorem unfinishedEncodingIsRejected : Obligations.UnfinishedEncodingIsRejected := by
  intro p s t hne hreset hout hrun
  obtain ⟨t', hrun', -, hprefix⟩ := encPrefixInvariant p s hreset
  obtain rfl : t' = t := Host.Outcome.next.inj (hrun'.symm.trans hrun)
  obtain ⟨-, ⟨o, hemitted, hodd, hopen⟩, -⟩ := hprefix hne
  rw [hout, List.nil_append] at hemitted
  rw [hemitted]
  exact ⟨(rleDecode_eq_malformedInput_iff o).mpr hodd, hopen⟩

end Sys2Proof.Machine
end

section
/-! A host that follows the rules of use (70_reset_and_hazards.md R153, R155, R159; log 15): where its streams leave the units. -/

namespace Sys2Proof.Machine

/-- A unit with no stream open in the host's view is in its reset state, or, for the DEC unit, in ERR after a failed run. -/
def ViewAgrees (v : HostView) (s : State) : Prop :=
  (v.encOpen = false → s.enc = ⟨.idle, 0, 0⟩) ∧ (v.decOpen = false → s.dec = ⟨.val, 0⟩ ∨ s.dec.st = .err)

/-- `DEC.END` leaves the reset state or ERR, from every state (41_decoder.md R92). -/
theorem decEndRegs_reset_or_err (d : DecUnit) : decEndRegs d = ⟨.val, 0⟩ ∨ (decEndRegs d).st = .err := by
  unfold decEndRegs
  cases hd : d.st with
  | val => exact .inl rfl
  | cnt => exact .inr rfl
  | err => exact .inr hd

/-- A BYTE opens its unit's stream, END closes it with the unit at rest, and the other unit keeps its side. -/
theorem exec_viewAgrees {item : Item} {v : HostView} {s t : State} (hv : ViewAgrees v s)
    (hexec : exec (decode item) s = .next t) : ViewAgrees (viewAfter v (.present item)) t := by
  obtain ⟨henc, hdec⟩ := hv
  simp only [viewAfter]
  cases hi : decode item with
  | encByte b =>
    obtain ⟨-, rfl⟩ := eq_encEffect rfl (hi ▸ hexec)
    exact ⟨fun hclosed => Bool.noConfusion hclosed, hdec⟩
  | encEnd =>
    obtain ⟨-, rfl⟩ := eq_encEffect rfl (hi ▸ hexec)
    exact ⟨fun _ => rfl, hdec⟩
  | decByte b =>
    obtain rfl := eq_decEffect rfl (hi ▸ hexec)
    exact ⟨henc, fun hclosed => Bool.noConfusion hclosed⟩
  | decEnd =>
    obtain rfl := eq_decEffect rfl (hi ▸ hexec)
    exact ⟨henc, fun _ => decEndRegs_reset_or_err s.dec⟩
  | pair w c =>
    obtain rfl := eq_decEffect rfl (hi ▸ hexec)
    exact ⟨henc, fun hclosed => Bool.noConfusion hclosed⟩

theorem handle_viewAgrees {e : Event} {v : HostView} {s t : State} (hv : ViewAgrees v s)
    (hhandle : handle e s = .next t) : ViewAgrees (viewAfter v e) t := by
  cases e with
  | reset d =>
    obtain rfl := Host.Outcome.next.inj hhandle
    exact ⟨fun _ => rfl, fun _ => .inl rfl⟩
  | present item => exact exec_viewAgrees hv hhandle

/-- A host that follows the rules from an event on has that event accepted, and follows them from the state after it. -/
theorem exists_next_of_followsFrom_cons {v : HostView} {e : Event} {es : List Event} {s : State}
    (hfollows : followsFrom v (e :: es) s = true) :
    ∃ t, handle e s = .next t ∧ followsFrom (viewAfter v e) es t = true := by
  rw [followsFrom, Bool.and_eq_true] at hfollows
  obtain ⟨-, hrest⟩ := hfollows
  rw [handle_eq_stepOn]
  cases hstep : stepOn e s with
  | next t =>
    rw [hstep] at hrest
    exact ⟨present s.pending t, rfl, (followsFrom_present ..).trans hrest⟩
  | fault r => simp [hstep] at hrest
  | refused r => simp [hstep] at hrest

/-- A host that follows the rules has every event accepted, and ends with no stream open and the view still right. -/
theorem runEvents_of_followsFrom {v : HostView} {es : List Event} {s : State} (hv : ViewAgrees v s)
    (hfollows : followsFrom v es s = true) : ∃ t, runEvents es s = .next t ∧ ViewAgrees ⟨false, false⟩ t := by
  induction es generalizing v s with
  | nil =>
    obtain ⟨encOpen, decOpen⟩ := v
    obtain ⟨rfl, rfl⟩ : encOpen = false ∧ decOpen = false := by simpa [followsFrom] using hfollows
    exact ⟨s, rfl, hv⟩
  | cons e es ih =>
    obtain ⟨s₁, hfirst, hrest⟩ := exists_next_of_followsFrom_cons hfollows
    rw [runEvents_cons, hfirst, andThen_next]
    exact ih (handle_viewAgrees hv hfirst) hrest

/-- Settles O38: RESET leaves the reset state as it is, where no stream is open, and `runEvents_of_followsFrom` does the rest. -/
theorem dutifulHostEndsInResetStates : Obligations.DutifulHostEndsInResetStates := by
  intro es hrules
  match es, hrules with
  | .reset d :: es, hrules =>
    have hstart : ViewAgrees ⟨false, false⟩ State.reset := ⟨fun _ => rfl, fun _ => .inl rfl⟩
    obtain ⟨t, hrun, henc, hdec⟩ := runEvents_of_followsFrom hstart hrules
    exact ⟨t, (runEvents_cons (.reset d) es State.reset).trans hrun, henc rfl, hdec rfl⟩

end Sys2Proof.Machine
end
